-- ==== Sys2Proof/Word.lean ====
section
/-!
DEFINITION. The word types of TPCORE and the four-voice container `Quad`.
The widths are those of 10_state.md R11 to R24 and 30_encoding.md R50.
-/

namespace Sys2Proof

/-- An 8-bit value: an amplitude, a bias, a level, an operand byte; a signed table entry is read with `toInt`. -/
abbrev Byte := BitVec 8

/-- A 32-bit value: a phase accumulator or a tuning word (R12, R13). -/
abbrev Word := BitVec 32

/-- A 40-bit command word `w[39:0]` (R50). -/
abbrev CmdWord := BitVec 40

/-- The 2-bit code of a waveform kind; the code 3 exists as a value and is never stored (R14). -/
abbrev KindCode := BitVec 2

/-- The 2-bit code of an output mode; the code 3 exists as a value and is never stored (R21). -/
abbrev ModeCode := BitVec 2

/-- A voice index 0 to 3: "Exactly four Voices exist, indexed 0–3" (R11). -/
abbrev Voice := Fin 4

/-- Four like things, one for each voice (NVOICES = 4, R5). -/
structure Quad (α : Type) where
  v0 : α
  v1 : α
  v2 : α
  v3 : α
deriving DecidableEq, Repr

/-- The value of voice `i`: the `x[i]` of the spec's notation (00_scope.md section 6). -/
def Quad.get {α : Type} (q : Quad α) (i : Voice) : α :=
  match i with
  | 0 => q.v0
  | 1 => q.v1
  | 2 => q.v2
  | 3 => q.v3

/-- `x[i] <- a` (00_scope.md section 6). -/
def Quad.set {α : Type} (q : Quad α) (i : Voice) (a : α) : Quad α :=
  match i with
  | 0 => { q with v0 := a }
  | 1 => { q with v1 := a }
  | 2 => { q with v2 := a }
  | 3 => { q with v3 := a }

/-- The same value for every voice. -/
def Quad.fill {α : Type} (a : α) : Quad α := ⟨a, a, a, a⟩

/-- One value per voice, computed from the voice's index. -/
def Quad.ofFn {α : Type} (f : Voice → α) : Quad α := ⟨f 0, f 1, f 2, f 3⟩

/-- One value per voice, computed from the voice's own value. -/
def Quad.map {α β : Type} (f : α → β) (q : Quad α) : Quad β := ⟨f q.v0, f q.v1, f q.v2, f q.v3⟩

/-- The four integers added exactly. -/
def Quad.sum (q : Quad Int) : Int := q.v0 + q.v1 + q.v2 + q.v3

end Sys2Proof
end

