-- ==== Sys2Proof/Syntax.lean ====
section
/-!
DEFINITION. The commands of TPCORE (one constructor per row of spec/opcode_table.json), the events of its agents,
and the lines of its assembler.
-/

namespace Sys2Proof

/-- A command with the operands that its ACCEPT part reads (30_encoding.md R52, R53, R54, R58). Every value of every
operand is legal (R61), so a term of this type cannot be ill-formed. -/
inductive Instr where
  /-- `NOP`, op 0 (R110); the reserved opcodes 7 to 15 decode to it too (R51, R59). -/
  | nop
  /-- `BEGIN`, op 1 (R90): the mode byte `imm[7:0]`, not normalised. -/
  | begin (m : Byte)
  /-- `SETWAVE`, op 2 (R70): the kind bytes of voices 0 to 3, not normalised. -/
  | setwave (b0 b1 b2 b3 : Byte)
  /-- `SETTW`, op 3 (R71): the voice and its tuning word. -/
  | settw (v : Voice) (t : Word)
  /-- `SETVOL`, op 4 (R72): the amplitude bytes of voices 0 to 3. -/
  | setvol (b0 b1 b2 b3 : Byte)
  /-- `SUSPEND`, op 5 (R100). -/
  | suspend
  /-- `RESUME`, op 6 (R104). -/
  | resume
deriving DecidableEq, Repr

/-- The two fields that are written by a COMMIT: `f` of R24. -/
inductive PendField where
  | kind
  | amp
deriving DecidableEq, Repr

/-- What may happen next. `accept`, `commit`, `tick`, `rstep`, `rdone` and `reset` are the steps of 00_scope.md R8;
`present` and `withdraw` are HOST moving its own pins `cmd_valid` and `cmd_data` (10_state.md R25, 30_encoding.md R52:
"the HOST keeps presenting it (or withdraws it)"), log entry 2. -/
inductive Event where
  /-- HOST drives `cmd_valid = 1` and `cmd_data = w`. -/
  | present (w : CmdWord)
  /-- HOST drives `cmd_valid = 0`. -/
  | withdraw
  /-- ACCEPT of the word on the command port (R52). -/
  | accept
  /-- COMMIT(f, i) (R73). -/
  | commit (f : PendField) (i : Voice)
  /-- The sample tick (R80). -/
  | tick
  /-- RSTEP (R102). -/
  | rstep
  /-- RDONE (R103). -/
  | rdone
  /-- RESET (R140). -/
  | reset
deriving DecidableEq, Repr, Inhabited

/-- The three shapes of the Wave Table Store: "Exactly three shapes exist" (00_scope.md R5). -/
inductive Waveform where
  | sine
  | square
  | ramp
deriving DecidableEq, Repr

/-- A frequency or a rate in Hz as a fraction of integers (log entry 12). -/
structure Freq where
  num : Int
  den : Nat
deriving DecidableEq, Repr

/-- A kind argument of `SETWAVE` as the assembler is given it (30_encoding.md R57). -/
inductive KindArg where
  | sine
  | square
  | ramp
  | code (n : Int)
deriving DecidableEq, Repr

/-- A mode argument of `BEGIN` as the assembler is given it (30_encoding.md R57). -/
inductive ModeArg where
  | sea
  | seb
  | diff
  | code (n : Int)
deriving DecidableEq, Repr

/-- A line of the assembler (30_encoding.md R62, R63): the seven commands with the arguments as written, and the
pseudo-instructions `BEGIN` without operand and `SETFREQ`. -/
inductive AsmLine where
  | nop
  | begin (m : Option ModeArg)
  | setwave (k0 k1 k2 k3 : KindArg)
  | settw (v : Int) (t : Int)
  | setvol (a0 a1 a2 a3 : Int)
  | suspend
  | resume
  | setfreq (v : Int) (f : Freq)
deriving DecidableEq, Repr

/-- Why the assembler refuses a line. -/
inductive AsmError where
  /-- A voice index outside 0 to 3 (R57, U6 of 93_implementation_defined.md). -/
  | voiceOutOfRange
  /-- A negative frequency (R64, U7 of 93_implementation_defined.md). -/
  | negativeFrequency
  /-- A frequency written with the denominator 0, which is no real number. -/
  | zeroDenominator
  /-- Text that is no line of the syntax of R62. -/
  | badSyntax
deriving DecidableEq, Repr

end Sys2Proof
end

