-- ==== Sys2Proof/Config.lean ====
section
/-!
DEFINITION. What an implementation of TPCORE fixes (00_scope.md R5, R6) and the values that the spec leaves free.
-/

namespace Sys2Proof.Config

/-- The contents of the wavetable ROM, an argument of the model (20_memory.md R34, decision D11, U3): no body, so a
claim about `Config.rom` holds for every ROM. An entry is an s8, read with `toInt`. -/
opaque rom : Waveform → Byte → Byte

/-- Which event happens at the n-th free choice (00_scope.md R8: any enabled step may be next; decision D14, log
entry 1). No body: a claim holds for every interleaving. -/
opaque schedule : Nat → Event

/-- BIAS_CENTER (R5): "biasLevel == 127 denotes the neutral/silent center". -/
def biasCenter : Byte := 127

/-- SCALE_SHIFT (R5). -/
def scaleShift : Nat := 8

/-- The reference value of SAMPLE_RATE, 40000 Hz (R6, decision D13); no hardware rule reads it. -/
def sampleRateRef : Freq := ⟨40000, 1⟩

end Sys2Proof.Config
end

