-- ==== Sys2Proof/WellFormed.lean ====
section
/-!
DEFINITION. Well-formedness checks. The hardware has none to make: every operand of `Instr` is a bit field whose every
value is legal (30_encoding.md R51, R54, R61), which the types of `Instr` say once, so no check on `Instr` is needed.
What can be ill-formed is a line of the assembler: a voice index outside 0 to 3 (R57), a negative frequency (R64), and
a fraction that denotes no number.
-/

namespace Sys2Proof

/-- A voice argument that can be encoded: 0 to 3 (R57). -/
def voiceArgOk (v : Int) : Bool := decide (0 ≤ v ∧ v ≤ 3)

/-- A frequency in the domain of R64, "a non-negative real number", written as a fraction. -/
def Freq.wellFormed (f : Freq) : Bool := decide (0 ≤ f.num) && decide (f.den ≠ 0)

/-- A sample rate: a positive number (R6). -/
def Freq.isRate (f : Freq) : Bool := decide (0 < f.num) && decide (f.den ≠ 0)

/-- A line that the assembler does not refuse (R57: every other argument is reduced, never refused). -/
def AsmLine.wellFormed : AsmLine → Bool
  | .nop => true
  | .begin _ => true
  | .setwave _ _ _ _ => true
  | .settw v _ => voiceArgOk v
  | .setvol _ _ _ _ => true
  | .suspend => true
  | .resume => true
  | .setfreq v f => voiceArgOk v && f.wellFormed

end Sys2Proof
end

