-- ==== Sys2Proof/Decode.lean ====
section
/-!
DEFINITION. The fields of a command word, the decoder and the encoder, from 30_encoding.md R50 to R61. The decoder is
total: each of the 2^40 words decodes to exactly one command (R51).
-/

namespace Sys2Proof

/-- `op = w[39:36]` (R50). -/
def opField (w : CmdWord) : BitVec 4 := w.extractLsb' 36 4

/-- `v = w[35:34]` (R50), a voice index. -/
def vField (w : CmdWord) : Voice := ⟨(w.extractLsb' 34 2).toNat, (w.extractLsb' 34 2).isLt⟩

/-- `rsv = w[33:32]` (R50), ignored by the hardware (R60). -/
def rsvField (w : CmdWord) : BitVec 2 := w.extractLsb' 32 2

/-- `imm = w[31:0]` (R50). -/
def immField (w : CmdWord) : Word := w.extractLsb' 0 32

/-- The byte of voice `i` in a four-byte operand, `imm[8i+7:8i]` (R53). -/
def immByte (imm : Word) (i : Voice) : Byte := imm.extractLsb' (8 * i.val) 8

/-- `decode(w) = OPCODE_MAP[w[39:36]]` with the operands that R52 hands to the command; the reserved opcodes 7 to 15
decode to NOP (R51, R59). -/
def decode (w : CmdWord) : Instr :=
  match (opField w).toNat with
  | 1 => .begin (immByte (immField w) 0)
  | 2 => .setwave (immByte (immField w) 0) (immByte (immField w) 1) (immByte (immField w) 2) (immByte (immField w) 3)
  | 3 => .settw (vField w) (immField w)
  | 4 => .setvol (immByte (immField w) 0) (immByte (immField w) 1) (immByte (immField w) 2) (immByte (immField w) 3)
  | 5 => .suspend
  | 6 => .resume
  | _ => .nop

/-- The opcode number of a command (R58). -/
def opcode : Instr → BitVec 4
  | .nop => 0
  | .begin _ => 1
  | .setwave _ _ _ _ => 2
  | .settw _ _ => 3
  | .setvol _ _ _ _ => 4
  | .suspend => 5
  | .resume => 6

/-- The mnemonic of a command (R58). -/
def mnemonic : Instr → String
  | .nop => "NOP"
  | .begin _ => "BEGIN"
  | .setwave _ _ _ _ => "SETWAVE"
  | .settw _ _ => "SETTW"
  | .setvol _ _ _ _ => "SETVOL"
  | .suspend => "SUSPEND"
  | .resume => "RESUME"

/-- A command word from its four fields, `op` in the most significant position (R50). -/
def packWord (op : BitVec 4) (v : BitVec 2) (rsv : BitVec 2) (imm : Word) : CmdWord := op ++ v ++ rsv ++ imm

/-- A four-byte operand, voice 0 in the least significant byte (R53). -/
def packBytes (b0 b1 b2 b3 : Byte) : Word := b3 ++ b2 ++ b1 ++ b0

/-- The canonical word of a command: every ignored bit is 0 (R60). -/
def encode (i : Instr) : CmdWord :=
  match i with
  | .nop => packWord (opcode i) 0 0 0
  | .begin m => packWord (opcode i) 0 0 (m.setWidth 32)
  | .setwave b0 b1 b2 b3 => packWord (opcode i) 0 0 (packBytes b0 b1 b2 b3)
  | .settw v t => packWord (opcode i) (BitVec.ofNat 2 v.val) 0 t
  | .setvol b0 b1 b2 b3 => packWord (opcode i) 0 0 (packBytes b0 b1 b2 b3)
  | .suspend => packWord (opcode i) 0 0 0
  | .resume => packWord (opcode i) 0 0 0

/-- The bits of a word with opcode `op` that the hardware reads (R60): `op` always; `imm[7:0]` in BEGIN; all of `imm`
in SETWAVE, SETTW and SETVOL; `v` in SETTW only. -/
def usedMask (op : BitVec 4) : CmdWord :=
  match op.toNat with
  | 1 => 0xF0000000FF
  | 2 => 0xF0FFFFFFFF
  | 3 => 0xFCFFFFFFFF
  | 4 => 0xF0FFFFFFFF
  | _ => 0xF000000000

/-- A canonical word: no reserved opcode, and every ignored bit 0 (R60). -/
def CmdWord.canonical (w : CmdWord) : Bool := decide ((opField w).toNat ≤ 6) && (w &&& ~~~ usedMask (opField w) == 0)

/-- Why a number is no command word. -/
inductive DecodeError where
  /-- The number does not fit the 40 bits of the command port (R50: "The length of a command is always 40 bits"). -/
  | wordTooWide
deriving DecidableEq, Repr

/-- The decoder on any number of bits: it refuses, by name, a number wider than the command port. -/
def decodeNumber (w : Nat) : Except DecodeError Instr :=
  if w < 2 ^ 40 then .ok (decode (BitVec.ofNat 40 w)) else .error .wordTooWide

/-- The host's question about a row of the opcode table: the instruction whose low `nbits` bits are those of `w` and
whose other bits are 0. A command is one 40-bit word, so the table's numbering is that of R50 (log entry 20). -/
def decodeTableWord (nbits w : Nat) : Option Instr := (decodeNumber (w % 2 ^ nbits)).toOption

end Sys2Proof
end

