-- ==== Sys2Proof/Machine/State.lean ====
section
/-!
DEFINITION. The state of TPCORE (10_state.md R11 to R27), the ways a step could stop (none), and the state after reset.
-/

namespace Sys2Proof.Machine

/-- Everything the spec gives the block (the fields `ph` to `pendAmp`, R11 to R24), and four fields of the model's own
(`cmdPort` to `turn`), which are no registers of TPCORE. Plain data throughout. -/
structure State where
  /-- Phase accumulators (R12). -/
  ph : Quad Word
  /-- Tuning words (R13). -/
  tw : Quad Word
  /-- Waveform kind codes (R14). -/
  kind : Quad KindCode
  /-- Amplitudes (R15). -/
  amp : Quad Byte
  /-- Output mode code (R21). -/
  mode : ModeCode
  /-- A BEGIN has been performed since reset (R20). -/
  begun : Bool
  /-- Sample production is enabled (R17). -/
  running : Bool
  /-- A suspend ramp is in progress (R18). -/
  ramping : Bool
  /-- Bias level (R22). -/
  bias : Byte
  /-- Output level holding register (R23). -/
  level : Byte
  /-- The entries (KIND, i) of the pending set `pend` (R24). -/
  pendKind : Quad (Option KindCode)
  /-- The entries (AMP, i) of the pending set `pend` (R24). -/
  pendAmp : Quad (Option Byte)
  /-- The model's own: what HOST drives on `cmd_valid` and `cmd_data` (R25), the word while it is presented. -/
  cmdPort : Option CmdWord
  /-- The model's own: the level trace, oldest level first (00_scope.md R10). -/
  trace : List Byte
  /-- The model's own: the events that happen next (00_scope.md R8, log entry 1). -/
  agenda : List Event
  /-- The model's own: how many events have been drawn from `Config.schedule` (log entry 1). -/
  turn : Nat
deriving DecidableEq, Repr

/-- TPCORE raises no exception, ever (60_exceptions.md R120), and no access can be out of range (20_memory.md R37): a
step has no way to fault, so this type has no constructor. -/
inductive Fault where
deriving DecidableEq, Repr

/-- Why a step could have no meaning. -/
inductive Refusal where
  /-- Declared for the dispatch of commands without a meaning. Every command has its meaning, so nothing raises it;
  it would be safe, the model stopping where the hardware goes on. -/
  | notModelled (mnemonic : String)
deriving DecidableEq, Repr

/-- The state after RESET (R27, 70_reset_and_hazards.md R140). The four fields of the model's own start as log entries
1, 2 and 6 say. -/
def State.reset : State where
  ph := Quad.fill 0
  tw := Quad.fill 0
  kind := Quad.fill 0
  amp := Quad.fill 0
  mode := 0
  begun := false
  running := false
  ramping := false
  bias := Config.biasCenter
  level := Config.biasCenter
  pendKind := Quad.fill none
  pendAmp := Quad.fill none
  cmdPort := none
  trace := []
  agenda := []
  turn := 0

/-- What a step answers (Host/Core.lean). -/
abbrev Result := Host.Outcome State Fault Refusal

end Sys2Proof.Machine
end

