-- ==== Sys2Proof/Machine/Ops.lean ====
section
/-!
DEFINITION. The named operations that the meanings share. There is no exception to take and none to return from
(60_exceptions.md R120, R125, R126), so no such operation stands here.
-/

namespace Sys2Proof.Machine

/-- `pend` is empty (10_state.md R24). -/
def pendEmpty (s : State) : Bool := s.pendKind == Quad.fill none && s.pendAmp == Quad.fill none

/-- The output `cmd_ready`: `ramping = 0` and `pend` is empty (R25). It is the enabling condition of ACCEPT
(00_scope.md R8). -/
def cmdReady (s : State) : Bool := !s.ramping && pendEmpty s

/-- The ACCEPT step of a command whose effect on the state is `effect` (30_encoding.md R52). While `cmd_ready = 0` the
word "is simply not taken" and "no state changes": the command waits (log entry 4). -/
def acceptCommand (s : State) (effect : State → State) : Result :=
  if cmdReady s then .next (effect s) else .next s

/-- `tw[v] <- t`, one indivisible 32-bit write (20_memory.md R38). -/
def writeTw (s : State) (v : Voice) (t : Word) : State := { s with tw := s.tw.set v t }

/-- `kind[i] <- k`, one indivisible write (R38). -/
def writeKind (s : State) (i : Voice) (k : KindCode) : State := { s with kind := s.kind.set i k }

/-- `amp[i] <- a`, one indivisible write (R38). -/
def writeAmp (s : State) (i : Voice) (a : Byte) : State := { s with amp := s.amp.set i a }

/-- `pend[(KIND, i)] <- k i` for every voice (R24). -/
def queueKinds (s : State) (k : Quad KindCode) : State := { s with pendKind := k.map some }

/-- `pend[(AMP, i)] <- a i` for every voice (R24). -/
def queueAmps (s : State) (a : Quad Byte) : State := { s with pendAmp := a.map some }

/-- Remove `(KIND, i)` from `pend`. -/
def dropPendKind (s : State) (i : Voice) : State := { s with pendKind := s.pendKind.set i none }

/-- Remove `(AMP, i)` from `pend`. -/
def dropPendAmp (s : State) (i : Voice) : State := { s with pendAmp := s.pendAmp.set i none }

/-- `level <- out` and `emit(out)` (41_mixer.md R86). -/
def emitLevel (s : State) (out : Byte) : State := { s with level := out, trace := s.trace ++ [out] }

/-- Arithmetic right shift on integers, `floor(v / 2^k)` (00_scope.md section 6): division by a positive number in
`Int` rounds toward minus infinity. -/
def asr (v : Int) (k : Nat) : Int := v / 2 ^ k

end Sys2Proof.Machine
end

