-- ==== Sys2Proof/Machine/Nop.lean ====
section
/-!
DEFINITION. NOP and the reserved opcodes, which decode to it (44_nop_and_reserved.md R110, R111).
-/

namespace Sys2Proof.Machine

/-- NOP: no state change (R110). -/
def execNop (s : State) : Result := acceptCommand s fun s => s

end Sys2Proof.Machine
end

