-- ==== Sys2Proof/Machine/Operands.lean ====
section
/-!
DEFINITION. The operand forms of the commands: the two fallbacks of the configuration path (30_encoding.md R55, R56)
and the four-byte operand (R53).
-/

namespace Sys2Proof.Machine

/-- `norm_kind` (R55): 0 Sine, 1 Square, 2 Ramp; each other byte becomes 0, Sine. -/
def normKind (b : Byte) : KindCode := if b = 1 then 1 else if b = 2 then 2 else 0

/-- `norm_mode` (R56): 0 SingleEndedA, 1 SingleEndedB, 2 Differential; each other byte becomes 0. -/
def normMode (b : Byte) : ModeCode := if b = 1 then 1 else if b = 2 then 2 else 0

/-- The kind codes of a SETWAVE operand, normalised at ACCEPT (40_oscillator_bank.md R70). -/
def kindOperand (b0 b1 b2 b3 : Byte) : Quad KindCode := ⟨normKind b0, normKind b1, normKind b2, normKind b3⟩

/-- The amplitudes of a SETVOL operand: the bytes themselves (30_encoding.md R53). -/
def ampOperand (b0 b1 b2 b3 : Byte) : Quad Byte := ⟨b0, b1, b2, b3⟩

end Sys2Proof.Machine
end

