-- ==== Sys2Proof/Machine/OscBank.lean ====
section
/-!
DEFINITION. The Oscillator Bank: SETWAVE, SETTW, SETVOL and the event COMMIT (40_oscillator_bank.md R70 to R73).
-/

namespace Sys2Proof.Machine

/-- SETWAVE, its ACCEPT step (R70): four KIND writes are queued, normalised. -/
def execSetwave (b0 b1 b2 b3 : Byte) (s : State) : Result :=
  acceptCommand s fun s => queueKinds s (kindOperand b0 b1 b2 b3)

/-- SETTW, the whole command (R71). -/
def execSettw (v : Voice) (t : Word) (s : State) : Result := acceptCommand s fun s => writeTw s v t

/-- SETVOL, its ACCEPT step (R72): four AMP writes are queued. -/
def execSetvol (b0 b1 b2 b3 : Byte) (s : State) : Result :=
  acceptCommand s fun s => queueAmps s (ampOperand b0 b1 b2 b3)

/-- COMMIT(f, i) (R73): one pending write is performed and removed; without an entry (f, i) it is not enabled and
nothing happens. -/
def commitEvent (f : PendField) (i : Voice) (s : State) : State :=
  match f with
  | .kind =>
    match s.pendKind.get i with
    | some k => dropPendKind (writeKind s i k) i
    | none => s
  | .amp =>
    match s.pendAmp.get i with
    | some a => dropPendAmp (writeAmp s i a) i
    | none => s

end Sys2Proof.Machine
end

