-- ==== Sys2Proof/Machine/OutputMode.lean ====
section
/-!
DEFINITION. The Output Mode Selector and start-up: BEGIN (42_output_mode.md R90, R91).
-/

namespace Sys2Proof.Machine

/-- What the first BEGIN after reset writes (R90). -/
def startUp (s : State) (m : Byte) : State :=
  { s with mode := normMode m, bias := Config.biasCenter, begun := true, running := true }

/-- BEGIN: performed when `begun = 0` (R90), otherwise no state change (R91). -/
def execBegin (m : Byte) (s : State) : Result := acceptCommand s fun s => if s.begun then s else startUp s m

end Sys2Proof.Machine
end

