-- ==== Sys2Proof/Machine/Flags.lean ====
section
/-!
DEFINITION. The flags `running`, `ramping` and `begun` (10_state.md R17, R18, R20), the controller state they encode
(R19), and the output ports, pure functions of the state (R25).
-/

namespace Sys2Proof.Machine

/-- The three states of the Suspend/Resume Controller (R19). -/
inductive Controller where
  | running
  | rampingDown
  | suspended
deriving DecidableEq, Repr

/-- The controller state as a function of the two flags (R19). -/
def controller (s : State) : Controller :=
  if s.ramping then .rampingDown else if s.running then .running else .suspended

/-- The document's own test for Suspended, "biasLevel == 127 and not running", used by SUSPEND (43_suspend_resume.md
R100). -/
def alreadySuspended (s : State) : Bool := !s.running && s.bias == Config.biasCenter

/-- Set `running`. -/
def setRunning (s : State) (b : Bool) : State := { s with running := b }

/-- Set `ramping`. -/
def setRamping (s : State) (b : Bool) : State := { s with ramping := b }

/-- The output `sclk_en` (R25). -/
def sclkEn (s : State) : Bool := s.running

/-- The output `level_out` (R25). -/
def levelOut (s : State) : Byte := s.level

/-- The output `mode_out` (R25). -/
def modeOut (s : State) : ModeCode := s.mode

/-- The output `path_a_en` (R25, 42_output_mode.md R92). -/
def pathAEn (s : State) : Bool := s.begun && (s.mode == 0 || s.mode == 2)

/-- The output `path_b_en` (R25, 42_output_mode.md R92). -/
def pathBEn (s : State) : Bool := s.begun && (s.mode == 1 || s.mode == 2)

/-- The input `cmd_valid` (R25). -/
def cmdValid (s : State) : Bool := s.cmdPort.isSome

/-- What an observer sees (00_scope.md R10). -/
structure Observation where
  levels : List Byte
  sclkEn : Bool
  cmdReady : Bool
  pathAEn : Bool
  pathBEn : Bool
  modeOut : ModeCode
deriving DecidableEq, Repr

/-- The observation of a state: the level trace so far and the output ports (00_scope.md R10). -/
def observe (s : State) : Observation :=
  ⟨s.trace, sclkEn s, cmdReady s, pathAEn s, pathBEn s, modeOut s⟩

end Sys2Proof.Machine
end

