-- ==== Sys2Proof/Machine/SuspendResume.lean ====
section
/-!
DEFINITION. The Suspend/Resume Controller: SUSPEND, RESUME and the events RSTEP and RDONE (43_suspend_resume.md R100 to
R104).
-/

namespace Sys2Proof.Machine

/-- SUSPEND (R100): nothing when already Suspended (R101), otherwise the ramp starts. -/
def execSuspend (s : State) : Result :=
  acceptCommand s fun s => if alreadySuspended s then s else setRamping s true

/-- RESUME (R104): re-enables sample production once a BEGIN has been performed. -/
def execResume (s : State) : Result := acceptCommand s fun s => if s.begun then setRunning s true else s

/-- The bias moved by exactly one unit toward 127 (R102). -/
def biasTowardCenter (b : Byte) : Byte := if Config.biasCenter < b then b - 1 else b + 1

/-- How many ramp steps a bias is away from the centre: `|b - 127|` (R102). -/
def biasDistance (b : Byte) : Nat := ((b.toNat : Int) - 127).natAbs

/-- RSTEP (R102); when it is not enabled nothing happens. -/
def rstepEvent (s : State) : State :=
  if s.ramping && s.bias != Config.biasCenter then { s with bias := biasTowardCenter s.bias } else s

/-- RDONE (R103); when it is not enabled nothing happens. -/
def rdoneEvent (s : State) : State :=
  if s.ramping && s.bias == Config.biasCenter then
    { setRamping (setRunning s false) false with ph := Quad.fill 0 }
  else s

end Sys2Proof.Machine
end

