-- ==== Sys2Proof/Machine/Dispatch.lean ====
section
/-!
DEFINITION. The ACCEPT step of each command (30_encoding.md R52), one arm per row of spec/opcode_table.json.
-/

namespace Sys2Proof.Machine

/-- The ACCEPT part of a command (30_encoding.md R52): its effect while `cmd_ready = 1`; otherwise it waits. -/
def exec (i : Instr) (s : State) : Host.Outcome State Fault Refusal :=
  match i with
  | .nop => Sys2Proof.Machine.execNop s
  | .begin m => Sys2Proof.Machine.execBegin m s
  | .setwave b0 b1 b2 b3 => Sys2Proof.Machine.execSetwave b0 b1 b2 b3 s
  | .settw v t => Sys2Proof.Machine.execSettw v t s
  | .setvol b0 b1 b2 b3 => Sys2Proof.Machine.execSetvol b0 b1 b2 b3 s
  | .suspend => Sys2Proof.Machine.execSuspend s
  | .resume => Sys2Proof.Machine.execResume s

end Sys2Proof.Machine
end

