-- ==== Sys2Proof/Machine/Rom.lean ====
section
/-!
DEFINITION. The wavetable ROM: its read primitive (20_memory.md R33), its address (R40), and the reference contents
(R35).
-/

namespace Sys2Proof.Machine

/-- A ROM: three tables of 256 signed bytes (R34). -/
abbrev RomTable := Waveform → Byte → Byte

/-- The table that a kind code selects: "any unrecognized waveform kind request falls back to Sine" (R33). -/
def waveformOf (k : KindCode) : Waveform := if k = 1 then .square else if k = 2 then .ramp else .sine

/-- `RomRead(k, n)`, an s8 (R33). -/
def romRead (rom : RomTable) (k : KindCode) (n : Byte) : Byte := rom (waveformOf k) n

/-- The ROM address `{k, n}` (R40). -/
def romAddr (k : KindCode) (n : Byte) : BitVec 10 := k ++ n

/-- A read at a ROM address: `k` in bits 9:8 and `n` in bits 7:0 (R40). -/
def romAt (rom : RomTable) (a : BitVec 10) : Byte := romRead rom (a.extractLsb' 8 2) (a.extractLsb' 0 8)

/-- Indices 0 to 63 of the literal table `ROM_REF[Sine]` (R35). -/
def sineRows0 : List Int :=
  [0, 3, 6, 9, 12, 16, 19, 22, 25, 28, 31, 34, 37, 40, 43, 46,
   49, 51, 54, 57, 60, 63, 65, 68, 71, 73, 76, 78, 81, 83, 85, 88,
   90, 92, 94, 96, 98, 100, 102, 104, 106, 107, 109, 111, 112, 113, 115, 116,
   117, 118, 120, 121, 122, 122, 123, 124, 125, 125, 126, 126, 126, 127, 127, 127]

/-- Indices 64 to 127 of the literal table `ROM_REF[Sine]` (R35). -/
def sineRows64 : List Int :=
  [127, 127, 127, 127, 126, 126, 126, 125, 125, 124, 123, 122, 122, 121, 120, 118,
   117, 116, 115, 113, 112, 111, 109, 107, 106, 104, 102, 100, 98, 96, 94, 92,
   90, 88, 85, 83, 81, 78, 76, 73, 71, 68, 65, 63, 60, 57, 54, 51,
   49, 46, 43, 40, 37, 34, 31, 28, 25, 22, 19, 16, 12, 9, 6, 3]

/-- Indices 128 to 191 of the literal table `ROM_REF[Sine]` (R35). -/
def sineRows128 : List Int :=
  [0, -3, -6, -9, -12, -16, -19, -22, -25, -28, -31, -34, -37, -40, -43, -46,
   -49, -51, -54, -57, -60, -63, -65, -68, -71, -73, -76, -78, -81, -83, -85, -88,
   -90, -92, -94, -96, -98, -100, -102, -104, -106, -107, -109, -111, -112, -113, -115, -116,
   -117, -118, -120, -121, -122, -122, -123, -124, -125, -125, -126, -126, -126, -127, -127, -127]

/-- Indices 192 to 255 of the literal table `ROM_REF[Sine]` (R35). -/
def sineRows192 : List Int :=
  [-127, -127, -127, -127, -126, -126, -126, -125, -125, -124, -123, -122, -122, -121, -120, -118,
   -117, -116, -115, -113, -112, -111, -109, -107, -106, -104, -102, -100, -98, -96, -94, -92,
   -90, -88, -85, -83, -81, -78, -76, -73, -71, -68, -65, -63, -60, -57, -54, -51,
   -49, -46, -43, -40, -37, -34, -31, -28, -25, -22, -19, -16, -12, -9, -6, -3]

/-- `ROM_REF[Sine][n]`: the literal table of R35, "the table, not the formula, is the definition". -/
def sineRef (n : Nat) : Int :=
  if n < 64 then sineRows0.getD n 0
  else if n < 128 then sineRows64.getD (n - 64) 0
  else if n < 192 then sineRows128.getD (n - 128) 0
  else sineRows192.getD (n - 192) 0

/-- `ROM_REF[Square][n]` (R35). -/
def squareRef (n : Nat) : Int := if n ≤ 127 then 127 else -127

/-- `ROM_REF[Ramp][n]` (R35). -/
def rampRef (n : Nat) : Int := (n : Int) - 128

/-- `ROM_REF`, the contents of the reference instance (R35): the spec's own choice, for test vectors. -/
def romRef : RomTable
  | .sine, n => BitVec.ofInt 8 (sineRef n.toNat)
  | .square, n => BitVec.ofInt 8 (squareRef n.toNat)
  | .ramp, n => BitVec.ofInt 8 (rampRef n.toNat)

end Sys2Proof.Machine
end

