-- ==== Sys2Proof/Machine/Mixer.lean ====
section
/-!
DEFINITION. The Mixer / Sample Producer: the event TICK and its six stages (41_mixer.md R80 to R87). Every stage takes
the ROM as an argument (20_memory.md R34).
-/

namespace Sys2Proof.Machine

/-- Stage 1, phase advance: modulo 2^32, the carry discarded (R81). -/
def advancePhase (ph tw : Word) : Word := ph + tw

/-- Stage 2, index: the top 8 bits (R82). -/
def phaseIndex (ph : Word) : Byte := ph.extractLsb' 24 8

/-- Stage 4, scaling: the exact product, shifted right 8 with the sign kept (R84). -/
def scaleSample (raw amp : Byte) : Int := asr (raw.toInt * (amp.toNat : Int)) Config.scaleShift

/-- Stages 2 to 4 for one voice whose phase has been advanced already (R82 to R84). -/
def voiceScaled (rom : RomTable) (ph : Word) (k : KindCode) (a : Byte) : Int :=
  scaleSample (romRead rom k (phaseIndex ph)) a

/-- The four phases after the advance (R81). -/
def advancedPhases (s : State) : Quad Word := Quad.ofFn fun i => advancePhase (s.ph.get i) (s.tw.get i)

/-- Stage 5: the exact sum of the four scaled contributions (R85), each looked up at its advanced phase (R82). -/
def mixSum (rom : RomTable) (s : State) : Int :=
  (Quad.ofFn fun i => voiceScaled rom ((advancedPhases s).get i) (s.kind.get i) (s.amp.get i)).sum

/-- Stage 6: `(bias + sum) mod 2^8` (R86). -/
def outputLevel (bias : Byte) (sum : Int) : Byte := BitVec.ofInt 8 ((bias.toNat : Int) + sum)

/-- The body of TICK, without its enabling condition (R80). -/
def produceSample (rom : RomTable) (s : State) : State :=
  emitLevel { s with ph := advancedPhases s } (outputLevel s.bias (mixSum rom s))

/-- TICK, or the dropped `sample_tick` of a block that is not running (R80). -/
def tickEvent (rom : RomTable) (s : State) : State := if s.running then produceSample rom s else s

/-! The same sample path at the widths of R87, as a datapath would hold it: a 16-bit product, an 8-bit scaled value, an
11-bit sum. `tickEvent` does not use it. -/

/-- The scaler at the widths of R87: a 16-bit signed product, its top 8 bits. -/
def scaleBits (raw amp : Byte) : Byte := (raw.signExtend 16 * amp.setWidth 16).extractLsb' 8 8

/-- The adder tree in 11 signed bits (R85, R87). -/
def sumBits (q : Quad Byte) : BitVec 11 :=
  (q.v0.signExtend 11 + q.v1.signExtend 11) + (q.v2.signExtend 11 + q.v3.signExtend 11)

/-- The output level of the datapath: the low eight bits of the two's complement sum (R86). -/
def datapathLevel (rom : RomTable) (s : State) : Byte :=
  s.bias + (sumBits (Quad.ofFn fun i =>
    scaleBits (romRead rom (s.kind.get i) (phaseIndex ((advancedPhases s).get i))) (s.amp.get i))).setWidth 8

end Sys2Proof.Machine
end

