-- ==== Sys2Proof/Machine/Reset.lean ====
section
/-!
DEFINITION. The RESET event (70_reset_and_hazards.md R140).
-/

namespace Sys2Proof.Machine

/-- RESET: every piece of TPCORE's state to its reset value; nothing is appended to the level trace, and HOST's pins
and the coming events are not TPCORE's to clear (R140). -/
def resetEvent (s : State) : State :=
  { s with
    ph := Quad.fill 0, tw := Quad.fill 0, kind := Quad.fill 0, amp := Quad.fill 0
    mode := 0, begun := false, running := false, ramping := false
    bias := Config.biasCenter, level := Config.biasCenter
    pendKind := Quad.fill none, pendAmp := Quad.fill none }

end Sys2Proof.Machine
end

