-- ==== Sys2Proof/Machine/Events.lean ====
section
/-!
DEFINITION. The events of the five agents (00_scope.md R7, R8): when each is enabled, what each does, and which comes
next.
-/

namespace Sys2Proof.Machine

/-- HOST's word leaves the command port when it is accepted, that is when `cmd_valid` and `cmd_ready` are both 1
(10_state.md R25); while `cmd_ready = 0` HOST goes on presenting it (30_encoding.md R52). -/
def takeWord (s : State) : State := if cmdReady s then { s with cmdPort := none } else s

/-- ACCEPT of the word on the command port (30_encoding.md R52); with no word presented nothing happens. -/
def acceptEvent (s : State) : Result :=
  match s.cmdPort with
  | some w => exec (decode w) (takeWord s)
  | none => .next s

/-- The enabling conditions of 00_scope.md R8. HOST may always move its own pins. -/
def enabled (e : Event) (s : State) : Bool :=
  match e with
  | .present _ => true
  | .withdraw => true
  | .accept => cmdValid s && cmdReady s
  | .commit .kind i => (s.pendKind.get i).isSome
  | .commit .amp i => (s.pendAmp.get i).isSome
  | .tick => s.running
  | .rstep => s.ramping && s.bias != Config.biasCenter
  | .rdone => s.ramping && s.bias == Config.biasCenter
  | .reset => true

/-- One event with the ROM as an argument. An event that is not enabled does not occur in an execution of R8; here it
leaves the state as it is (log entry 8). -/
def runEventWith (rom : RomTable) (e : Event) (s : State) : Result :=
  match e with
  | .present w => .next { s with cmdPort := some w }
  | .withdraw => .next { s with cmdPort := none }
  | .accept => acceptEvent s
  | .commit f i => .next (commitEvent f i s)
  | .tick => .next (tickEvent rom s)
  | .rstep => .next (rstepEvent s)
  | .rdone => .next (rdoneEvent s)
  | .reset => .next (resetEvent s)

/-- One event of the machine, whose ROM is the free `Config.rom`. -/
def runEvent (e : Event) (s : State) : Result := runEventWith Config.rom e s

/-- Several events in order, stopping where one has no next state. -/
def runEventsWith (rom : RomTable) : List Event → State → Result
  | [], s => .next s
  | e :: es, s =>
    match runEventWith rom e s with
    | .next t => runEventsWith rom es t
    | .fault f => .fault f
    | .refused r => .refused r

/-- Several events of the machine in order. -/
def runEvents (es : List Event) (s : State) : Result := runEventsWith Config.rom es s

/-- Which event happens now: the head of the agenda, or a free choice when the agenda is empty (log entry 1). -/
def nextEvent (s : State) : Event :=
  match s.agenda with
  | e :: _ => e
  | [] => Config.schedule s.turn

/-- The state with that choice used up. -/
def advanceAgenda (s : State) : State :=
  match s.agenda with
  | _ :: es => { s with agenda := es }
  | [] => { s with turn := s.turn + 1 }

/-- The command word that the host's question stands for: the low `nbits` bits of `w`, the other bits 0. -/
def wordOfBits (nbits w : Nat) : CmdWord := BitVec.ofNat 40 (w % 2 ^ nbits)

/-- HOST presents `w`, and the next event is its ACCEPT. -/
def offerWord (s : State) (w : CmdWord) : State := { s with cmdPort := some w, agenda := .accept :: s.agenda }

end Sys2Proof.Machine
end

