-- ==== Sys2Proof/Machine/Step.lean ====
section
/-!
DEFINITION. One step of the machine: the next event happens.
-/

namespace Sys2Proof.Machine

/-- One atomic step (00_scope.md R8): the next event, performed on the state with that choice used up. -/
def step (s : State) : Host.Outcome State Fault Refusal := runEvent (nextEvent s) (advanceAgenda s)

/-- The state in which HOST presents that word and the very next step is its ACCEPT (log entry 7). -/
def State.withFetchWord (s : State) (nbits w : Nat) : State := offerWord s (wordOfBits nbits w)

end Sys2Proof.Machine
end

