-- ==== Sys2Proof/Machine/Assembler.lean ====
section
/-!
DEFINITION. The assembler (30_encoding.md R57, R60, R62 to R65): host arithmetic, done before a command word exists.
-/

namespace Sys2Proof.Machine

/-- A kind argument as a byte: a name or 0, 1, 2 gives its code, any other integer gives 0, Sine, with no reduction
modulo 256 (R57). -/
def kindArgByte : KindArg → Byte
  | .sine => 0
  | .square => 1
  | .ramp => 2
  | .code n => if n = 1 then 1 else if n = 2 then 2 else 0

/-- A mode argument as a byte; no operand, or an integer other than 0, 1, 2, gives 0, SingleEndedA (R57, R63). -/
def modeArgByte : Option ModeArg → Byte
  | none => 0
  | some .sea => 0
  | some .seb => 1
  | some .diff => 2
  | some (.code n) => if n = 1 then 1 else if n = 2 then 2 else 0

/-- An amplitude argument: "Values are taken modulo 256 (fixed 8-bit width), not clamped" (R57). -/
def ampArgByte (a : Int) : Byte := BitVec.ofInt 8 a

/-- A tuning word argument, reduced modulo 2^32 (R57). -/
def twArgWord (t : Int) : Word := BitVec.ofInt 32 t

/-- A voice argument: 0 to 3, anything else is refused and not reduced modulo 4 (R57, U6). -/
def voiceArg (v : Int) : Except AsmError Voice :=
  if h : 0 ≤ v ∧ v ≤ 3 then .ok ⟨v.toNat, by omega⟩ else .error .voiceOutOfRange

/-- `TW(f) = floor(f · 2^32 / SAMPLE_RATE + 1/2) mod 2^32` (R64), for `f` and SAMPLE_RATE given as fractions: with
`f = a / b` and SAMPLE_RATE = `c / d` the number under the floor is `(2·a·d·2^32 + b·c) / (2·b·c)`. -/
def tuningWord (rate f : Freq) : Word :=
  BitVec.ofInt 32 ((2 * f.num * rate.den * 2 ^ 32 + f.den * rate.num) / (2 * f.den * rate.num))

/-- The tuning words that a conforming host library may compute: `TW(f)` or one unit either way, modulo 2^32 (R64,
U4). -/
def tuningWordConforms (rate f : Freq) (t : Word) : Bool :=
  t == tuningWord rate f - 1 || t == tuningWord rate f || t == tuningWord rate f + 1

/-- A frequency argument of SETFREQ as a tuning word; a negative frequency is refused (R64, U7). -/
def freqArg (rate f : Freq) : Except AsmError Word :=
  if f.den = 0 then .error .zeroDenominator
  else if f.num < 0 then .error .negativeFrequency
  else .ok (tuningWord rate f)

/-- The command of a line (R62), the pseudo-instructions expanded (R63). -/
def assemble (rate : Freq) : AsmLine → Except AsmError Instr
  | .nop => .ok .nop
  | .begin m => .ok (.begin (modeArgByte m))
  | .setwave k0 k1 k2 k3 => .ok (.setwave (kindArgByte k0) (kindArgByte k1) (kindArgByte k2) (kindArgByte k3))
  | .settw v t => (voiceArg v).map fun i => .settw i (twArgWord t)
  | .setvol a0 a1 a2 a3 => .ok (.setvol (ampArgByte a0) (ampArgByte a1) (ampArgByte a2) (ampArgByte a3))
  | .suspend => .ok .suspend
  | .resume => .ok .resume
  | .setfreq v f => (freqArg rate f).bind fun t => (voiceArg v).map fun i => .settw i t

/-- The word of a line: the canonical encoding of its command (R60, R62). -/
def assembleWord (rate : Freq) (l : AsmLine) : Except AsmError CmdWord := (assemble rate l).map encode

/-- The name that the disassembler prints for a kind byte: that of the kind the hardware stores (log entry 14). -/
def kindArgOf (b : Byte) : KindArg := if b = 1 then .square else if b = 2 then .ramp else .sine

/-- The name that the disassembler prints for a mode byte: that of the mode the hardware stores (log entry 14). -/
def modeArgOf (b : Byte) : ModeArg := if b = 1 then .seb else if b = 2 then .diff else .sea

/-- The line of a command, its ignored bits forgotten: "a disassembler prints the canonical form" (R60). DESIGN CHOICE
(log entry 14): a word with a reserved opcode has no canonical word and no mnemonic (44_nop_and_reserved.md R111); it is
the command NOP for the decoder, and so it is printed as NOP. -/
def disassemble : Instr → AsmLine
  | .nop => .nop
  | .begin m => .begin (some (modeArgOf m))
  | .setwave b0 b1 b2 b3 => .setwave (kindArgOf b0) (kindArgOf b1) (kindArgOf b2) (kindArgOf b3)
  | .settw v t => .settw v.val t.toNat
  | .setvol b0 b1 b2 b3 => .setvol b0.toNat b1.toNat b2.toNat b3.toNat
  | .suspend => .suspend
  | .resume => .resume

/-- The calls of the document's configuration surface (R65). -/
inductive Call where
  | beginDefault
  | beginMode (m : ModeArg)
  | setWave (w0 w1 w2 w3 : KindArg)
  | setFrequency (voiceId : Int) (frequencyHz : Freq)
  | setVolume (a0 a1 a2 a3 : Int)
  | suspend
  | resume
deriving DecidableEq, Repr

/-- The command line that carries a call: "Every call is one command word; no call needs two" (R65). -/
def lineOfCall : Call → AsmLine
  | .beginDefault => .begin none
  | .beginMode m => .begin (some m)
  | .setWave w0 w1 w2 w3 => .setwave w0 w1 w2 w3
  | .setFrequency v f => .setfreq v f
  | .setVolume a0 a1 a2 a3 => .setvol a0 a1 a2 a3
  | .suspend => .suspend
  | .resume => .resume

end Sys2Proof.Machine
end

