-- ==== Sys2Proof/Machine/AsmText.lean ====
section
/-!
DEFINITION. The textual form of the assembler's lines (30_encoding.md R62): one command per line, mnemonics in capitals,
operands separated by commas, integers in decimal or 0x hexadecimal, `;` starts a comment. What R62 leaves open of the
text (blanks, the minus sign, the decimal point of a frequency) is log entry 13.
-/

namespace Sys2Proof.Machine

/-- A blank inside a line. -/
def isBlank (c : Char) : Bool := c == ' ' || c == '\t' || c == '\r'

/-- The text before the comment. -/
def dropComment (l : List Char) : List Char := l.takeWhile (· != ';')

/-- The text without the blanks at its two ends. -/
def trimBlanks (l : List Char) : List Char := ((l.dropWhile isBlank).reverse.dropWhile isBlank).reverse

/-- The parts of a text between the separators. -/
def splitAtChar (sep : Char) : List Char → List (List Char)
  | [] => [[]]
  | c :: cs =>
    match splitAtChar sep cs with
    | [] => [[c]]
    | p :: ps => if c == sep then [] :: p :: ps else (c :: p) :: ps

/-- The value of a digit, decimal or hexadecimal. -/
def digitValue (c : Char) : Nat :=
  if '0' ≤ c ∧ c ≤ '9' then c.toNat - 48
  else if 'a' ≤ c ∧ c ≤ 'f' then c.toNat - 87
  else if 'A' ≤ c ∧ c ≤ 'F' then c.toNat - 55
  else 16

/-- A non-empty run of digits of a base. -/
def parseDigits (base : Nat) (l : List Char) : Option Nat :=
  if l.isEmpty || l.any (fun c => decide (base ≤ digitValue c)) then none
  else some (l.foldl (fun n c => n * base + digitValue c) 0)

/-- A natural number in decimal or 0x hexadecimal (R62). -/
def parseNumber : List Char → Option Nat
  | '0' :: 'x' :: ds => parseDigits 16 ds
  | ds => parseDigits 10 ds

/-- An integer: a number, with a minus sign if it is negative. -/
def parseInteger : List Char → Option Int
  | '-' :: ds => (parseNumber ds).map fun n => - (n : Int)
  | ds => (parseNumber ds).map fun n => (n : Int)

/-- A frequency without sign: a number, or decimal digits with one point. -/
def parseUnsignedFreq (l : List Char) : Option Freq :=
  match splitAtChar '.' l with
  | [_] => (parseNumber l).map fun n => ⟨n, 1⟩
  | [a, b] =>
    match parseDigits 10 a, parseDigits 10 b with
    | some n, some m => some ⟨(n * 10 ^ b.length + m : Nat), 10 ^ b.length⟩
    | _, _ => none
  | _ => none

/-- A frequency; the sign is read so that a negative one is refused by its own name (U7). -/
def parseFreq : List Char → Option Freq
  | '-' :: ds => (parseUnsignedFreq ds).map fun f => ⟨- f.num, f.den⟩
  | ds => parseUnsignedFreq ds

/-- A kind operand: a name or an integer (R57). -/
def parseKind (l : List Char) : Option KindArg :=
  if l = "SINE".toList then some .sine
  else if l = "SQUARE".toList then some .square
  else if l = "RAMP".toList then some .ramp
  else (parseInteger l).map .code

/-- A mode operand: a name or an integer (R57). -/
def parseMode (l : List Char) : Option ModeArg :=
  if l = "SEA".toList then some .sea
  else if l = "SEB".toList then some .seb
  else if l = "DIFF".toList then some .diff
  else (parseInteger l).map .code

/-- The operands of a line: the parts between commas, without blanks around them. -/
def operandsOf (l : List Char) : List (List Char) :=
  if (trimBlanks l).isEmpty then [] else (splitAtChar ',' l).map trimBlanks

/-- A mnemonic with its operands (R62, R63). -/
def parseCommand (name : List Char) (ops : List (List Char)) : Option AsmLine :=
  if name = "NOP".toList then
    match ops with
    | [] => some .nop
    | _ => none
  else if name = "BEGIN".toList then
    match ops with
    | [] => some (.begin none)
    | [m] => (parseMode m).map fun m => .begin (some m)
    | _ => none
  else if name = "SETWAVE".toList then
    match ops.map parseKind with
    | [some a, some b, some c, some d] => some (.setwave a b c d)
    | _ => none
  else if name = "SETTW".toList then
    match ops.map parseInteger with
    | [some v, some t] => some (.settw v t)
    | _ => none
  else if name = "SETVOL".toList then
    match ops.map parseInteger with
    | [some a, some b, some c, some d] => some (.setvol a b c d)
    | _ => none
  else if name = "SUSPEND".toList then
    match ops with
    | [] => some .suspend
    | _ => none
  else if name = "RESUME".toList then
    match ops with
    | [] => some .resume
    | _ => none
  else if name = "SETFREQ".toList then
    match ops with
    | [v, f] =>
      match parseInteger v, parseFreq f with
      | some v, some f => some (.setfreq v f)
      | _, _ => none
    | _ => none
  else none

/-- One line of text: nothing when it holds only blanks and a comment (R62). -/
def parseLine (l : List Char) : Except AsmError (Option AsmLine) :=
  let t := trimBlanks (dropComment l)
  if t.isEmpty then .ok none
  else
    match parseCommand (t.takeWhile fun c => !isBlank c) (operandsOf (t.dropWhile fun c => !isBlank c)) with
    | some a => .ok (some a)
    | none => .error .badSyntax

/-- A program text, line by line, as command words; the first refused line stops it. -/
def assembleText (rate : Freq) : List (List Char) → Except AsmError (List CmdWord)
  | [] => .ok []
  | l :: ls =>
    match parseLine l with
    | .error e => .error e
    | .ok none => assembleText rate ls
    | .ok (some a) =>
      match assembleWord rate a, assembleText rate ls with
      | .ok w, .ok ws => .ok (w :: ws)
      | .error e, _ => .error e
      | _, .error e => .error e

/-- The name of a kind (R57). -/
def kindName : KindArg → String
  | .sine => "SINE"
  | .square => "SQUARE"
  | .ramp => "RAMP"
  | .code n => toString n

/-- The name of a mode (R57). -/
def modeName : ModeArg → String
  | .sea => "SEA"
  | .seb => "SEB"
  | .diff => "DIFF"
  | .code n => toString n

/-- The text of a command in the canonical form (R60, R62). DESIGN CHOICE (log entry 14) where the spec does not say which
of two spellings is printed: an integer in decimal, not in `0x` hexadecimal; a kind or mode by its name, not its number;
the mode of BEGIN always; SETTW, not SETFREQ; one blank after the mnemonic and after each comma. -/
def printCommand (i : Instr) : String :=
  match disassemble i with
  | .begin (some m) => mnemonic i ++ " " ++ modeName m
  | .setwave k0 k1 k2 k3 =>
    mnemonic i ++ " " ++ kindName k0 ++ ", " ++ kindName k1 ++ ", " ++ kindName k2 ++ ", " ++ kindName k3
  | .settw v t => mnemonic i ++ " " ++ toString v ++ ", " ++ toString t
  | .setvol a0 a1 a2 a3 =>
    mnemonic i ++ " " ++ toString a0 ++ ", " ++ toString a1 ++ ", " ++ toString a2 ++ ", " ++ toString a3
  | .begin none => mnemonic i
  | .nop => mnemonic i
  | .suspend => mnemonic i
  | .resume => mnemonic i
  | .setfreq _ _ => mnemonic i

end Sys2Proof.Machine
end

