-- ==== Sys2Proof/Machine/Cycle.lean ====
section
/-!
DEFINITION. The order in which the reference instance performs steps that coincide in one clock cycle (60_exceptions.md
R124): one of the interleavings that 00_scope.md R8 allows.
-/

namespace Sys2Proof.Machine

/-- What the inputs and the internal timers ask for in one clock cycle (R124, 10_state.md R25). -/
structure Strobes where
  /-- The input `rst`. -/
  rst : Bool
  /-- The input `sample_tick`. -/
  sampleTick : Bool
  /-- The ramp timer fires (R123). -/
  rampTimer : Bool
  /-- The COMMIT steps of this cycle, in their order (R43 leaves the order open; log entry 17). -/
  commits : List (PendField × Voice)
  /-- `cmd_data` when `cmd_valid = 1`. -/
  command : Option CmdWord
deriving DecidableEq, Repr

/-- The levels of `cmd_valid` and `cmd_data` in this cycle. -/
def pinEvents (c : Strobes) : List Event :=
  match c.command with
  | some w => [.present w]
  | none => [.withdraw]

/-- Item 3 of R124: RSTEP, or RDONE when `bias = 127` (R123). -/
def rampEvents (c : Strobes) (s : State) : List Event :=
  if c.rampTimer && s.ramping then
    if s.bias == Config.biasCenter then [.rdone] else [.rstep]
  else []

/-- The events of one cycle in the order of R124: RESET alone; or TICK, then RSTEP or RDONE, then COMMITs, then ACCEPT
if `cmd_ready` was 1 at the start of the cycle. -/
def cycleEvents (c : Strobes) (s : State) : List Event :=
  pinEvents c ++
    if c.rst then [.reset]
    else
      (if c.sampleTick && s.running then [.tick] else [])
      ++ rampEvents c s
      ++ (c.commits.map fun fi => .commit fi.1 fi.2)
      ++ (if c.command.isSome && cmdReady s then [.accept] else [])

/-- One clock cycle of the reference instance (R124). -/
def clockCycle (rom : RomTable) (c : Strobes) (s : State) : Result := runEventsWith rom (cycleEvents c s) s

/-- The state whose next steps are those of one clock cycle: the order of R124 as an agenda. -/
def scheduleCycle (c : Strobes) (s : State) : State := { s with agenda := cycleEvents c s ++ s.agenda }

end Sys2Proof.Machine
end

