-- ==== Sys2Proof/Machine/Timing.lean ====
section
/-!
DEFINITION. The figures that the spec gives of pitch and time (41_mixer.md R88, 40_oscillator_bank.md R71,
70_reset_and_hazards.md R148, R154), as rational numbers. No step reads them: the model has no time (00_scope.md R9).
-/

namespace Sys2Proof.Machine

/-- A frequency in Hz as a number. -/
def hertz (f : Freq) : ℚ := (f.num : ℚ) / (f.den : ℚ)

/-- The pitch of a voice: `tw · SAMPLE_RATE / 2^32` Hz below Nyquist (R88 (c)); at `2^31` or more it aliases to
`(2^32 - tw) · SAMPLE_RATE / 2^32` Hz (R71, R148). -/
def toneHz (rate : ℚ) (t : Word) : ℚ :=
  if t.toNat < 2 ^ 31 then (t.toNat : ℚ) * rate / 2 ^ 32 else (2 ^ 32 - (t.toNat : ℚ)) * rate / 2 ^ 32

/-- "frequency resolution = sampleRate / 2^32" (R154). -/
def frequencyResolution (rate : ℚ) : ℚ := rate / 2 ^ 32

/-- The duration of a ramp from `bias = b`: `|b - 127| · RAMP_STEP_TIME` (R154), RAMP_STEP_TIME being an argument
(00_scope.md R6, decision D19). -/
def rampDuration (stepTime : ℚ) (b : Byte) : ℚ := (biasDistance b : ℚ) * stepTime

end Sys2Proof.Machine
end

