-- ==== Sys2Proof/Safety.lean ====
section
/-!
DEFINITION. The terms in which claims are stated: the invariants of the reachable states (10_state.md R29), executions
and fairness (00_scope.md R8, R9), the headroom (70_reset_and_hazards.md R146), the distance of the bias from its centre.
-/

namespace Sys2Proof.Machine

/-- V1 of R29, with what makes it inductive: the code 3 is neither stored nor pending. -/
abbrev codesLegal (s : State) : Prop :=
  (∀ i : Voice, s.kind.get i ≠ 3) ∧ (∀ i : Voice, s.pendKind.get i ≠ some 3) ∧ s.mode ≠ 3

/-- V2 of R29. -/
abbrev biasCentered (s : State) : Prop := s.bias = 127

/-- V3 of R29. -/
abbrev runningImpliesBegun (s : State) : Prop := s.running = true → s.begun = true

/-- V4 of R29. -/
abbrev rampingImpliesNothingPending (s : State) : Prop := s.ramping = true → pendEmpty s = true

/-- V5 of R29. -/
abbrev rampingImpliesRunning (s : State) : Prop := s.ramping = true → s.running = true

/-- V6 of R29. -/
abbrev stoppedImpliesPhasesZero (s : State) : Prop := s.running = false → ∀ i : Voice, s.ph.get i = 0

/-- V7 of R29: all the pending writes are of one field. (At most one entry per voice is the shape of `pendKind` and
`pendAmp`.) -/
abbrev pendingOneField (s : State) : Prop := s.pendKind = Quad.fill none ∨ s.pendAmp = Quad.fill none

/-- The seven invariants of R29 together. -/
abbrev Invariant (s : State) : Prop :=
  codesLegal s ∧ biasCentered s ∧ runningImpliesBegun s ∧ rampingImpliesNothingPending s ∧ rampingImpliesRunning s ∧
    stoppedImpliesPhasesZero s ∧ pendingOneField s

/-- The states that some execution reaches: a RESET, then any events in any order (R8, R29). -/
inductive Reachable : State → Prop where
  | reset (s : State) : Reachable (resetEvent s)
  | event (e : Event) (s t : State) : Reachable s → runEvent e s = .next t → Reachable t

/-- An infinite run: state after state and the event that happens in each (R8). -/
def IsRun (r : Nat → State) (ev : Nat → Event) : Prop := ∀ n, runEvent (ev n) (r n) = .next (r (n + 1))

/-- The event `e` is taken at the n-th place of a run: it happens there and is enabled there. -/
def Taken (e : Event) (r : Nat → State) (ev : Nat → Event) (n : Nat) : Prop := ev n = e ∧ enabled e (r n) = true

/-- Weak fairness (00_scope.md R9): a step "that stays enabled is eventually taken". -/
def WeaklyFair (e : Event) (r : Nat → State) (ev : Nat → Event) : Prop :=
  ∀ n, (∀ m, n ≤ m → enabled e (r m) = true) → ∃ m, n ≤ m ∧ Taken e r ev m

/-- The fairness that R9 allows a claim to use: of every COMMIT, of RSTEP and of RDONE. -/
def FairAgents (r : Nat → State) (ev : Nat → Event) : Prop :=
  (∀ f i, WeaklyFair (.commit f i) r ev) ∧ WeaklyFair .rstep r ev ∧ WeaklyFair .rdone r ev

/-- A condition on an event and the state in which it happens, all along a finite run. -/
def alongRun (p : Event → State → Bool) (rom : RomTable) : List Event → State → Bool
  | [], _ => true
  | e :: es, s =>
    p e s &&
      match runEventWith rom e s with
      | .next t => alongRun p rom es t
      | .fault _ => false
      | .refused _ => false

/-- The event leaves the tone of voice `i` running: it is no RESET, it does not end a ramp, and it accepts no SETTW that
gives the voice another tuning word (41_mixer.md R81: "with `tw[i] = T` unchanged"). -/
def keepsTone (i : Voice) (e : Event) (s : State) : Bool :=
  match e with
  | .reset => false
  | .rdone => !enabled .rdone s
  | .accept =>
    match s.cmdPort with
    | none => true
    | some w =>
      match decode w with
      | .settw v t => !cmdReady s || v != i || t == s.tw.get i
      | .nop => true
      | .begin _ => true
      | .setwave _ _ _ _ => true
      | .setvol _ _ _ _ => true
      | .suspend => true
      | .resume => true
  | .present _ => true
  | .withdraw => true
  | .commit _ _ => true
  | .tick => true
  | .rstep => true

/-- The place of an event in a clock cycle (60_exceptions.md R124, whose items are 1 to 5); the pins come first (log
entry 17). -/
def cycleRank : Event → Nat
  | .present _ => 0
  | .withdraw => 0
  | .reset => 1
  | .tick => 2
  | .rstep => 3
  | .rdone => 3
  | .commit _ _ => 4
  | .accept => 5

/-- The sums for which the level does not wrap with `bias = 127`: exactly -127 to 128 (R146). -/
abbrev inHeadroom (sum : Int) : Prop := -127 ≤ sum ∧ sum ≤ 128

/-- The number of TICKs after which a voice with this tuning word is at its phase again (41_mixer.md R88 (c)). -/
def repeatPeriod (t : Word) : Nat := 2 ^ 32 / Nat.gcd t.toNat (2 ^ 32)

/-- Every piece of state that the spec gives TPCORE has its reset value (10_state.md R27). -/
abbrev atResetValues (s : State) : Prop :=
  (∀ i : Voice, s.ph.get i = 0 ∧ s.tw.get i = 0 ∧ s.kind.get i = 0 ∧ s.amp.get i = 0) ∧
    s.mode = 0 ∧ s.begun = false ∧ s.running = false ∧ s.ramping = false ∧ s.bias = 127 ∧ s.level = 127 ∧
    (∀ i : Voice, s.pendKind.get i = none ∧ s.pendAmp.get i = none)

/-- The code that a kind byte or a mode byte is stored as: 1 and 2 are themselves, everything else is 0
(30_encoding.md R55, R56). -/
def fallbackCode (b : Byte) : BitVec 2 := if b.toNat = 1 then 1 else if b.toNat = 2 then 2 else 0

/-- One commit of each entry that `pend` can hold. -/
def allCommits : List Event :=
  [.commit .kind 0, .commit .kind 1, .commit .kind 2, .commit .kind 3,
   .commit .amp 0, .commit .amp 1, .commit .amp 2, .commit .amp 3]

/-- HOST presents a word, and it is offered to the block once. -/
def offerEvents (w : CmdWord) : List Event := [.present w, .accept]

/-- How many writes are pending (10_state.md R24). -/
def pendingCount (s : State) : Nat :=
  ([0, 1, 2, 3] : List Voice).countP (fun i => (s.pendKind.get i).isSome) +
    ([0, 1, 2, 3] : List Voice).countP (fun i => (s.pendAmp.get i).isSome)

/-- How many COMMITs are taken when these events happen in order: those that are enabled where they happen. -/
def commitsTaken (rom : RomTable) : List Event → State → Nat
  | [], _ => 0
  | e :: es, s =>
    (match e with
      | .commit f i => if enabled (.commit f i) s then 1 else 0
      | _ => 0) +
    (match runEventWith rom e s with
      | .next t => commitsTaken rom es t
      | _ => 0)

/-- What one voice contributes to a sample, written with integers only (41_mixer.md R80 to R84): the table entry at the
top eight bits of the phase `p`, times the amplitude, divided by 256 toward minus infinity. -/
def contribution (rom : RomTable) (p : Nat) (k : KindCode) (a : Byte) : Int :=
  ((romRead rom k (BitVec.ofNat 8 (p / 2 ^ 24))).toInt * (a.toNat : Int)) / 256

end Sys2Proof.Machine
end

