-- ==== Sys2Proof/Certificates/Slice0/Obligations.lean ====
section
/-!
DEFINITION. The statements for the provers, each from the numbered rules of spec/.
-/

open Sys2Proof Sys2Proof.Machine

/-! ### Encoding -/

/-- Decoding the encoding of a command gives the command back, for every operand value. -/
def Obligations.DecodeOfEncodeIsTheCommand : Prop := ∀ i : Instr, decode (encode i) = i

/-- A canonical word is the encoding of the command it decodes to. -/
def Obligations.CanonicalWordIsReencoded : Prop := ∀ w : CmdWord, CmdWord.canonical w = true → encode (decode w) = w

/-- The ignored bits are those that R60 lists; words that differ only in ignored bits are the same command; the encoder,
and with it the assembler, writes every ignored bit as 0; assembling a disassembled word gives a canonical word. (That the
disassembly of a word with a reserved opcode is NOP is the model's choice: log entry 14.) -/
def Obligations.IgnoredBitsDoNotMatter : Prop :=
  (∀ w w' : CmdWord, w &&& usedMask (opField w) = w' &&& usedMask (opField w) → decode w' = decode w) ∧
    (∀ (op : BitVec 4) (i : Fin 40),
      (usedMask op).getLsbD i = false ↔
        (i.val = 32 ∨ i.val = 33) ∨ ((i.val = 34 ∨ i.val = 35) ∧ op ≠ 3) ∨ (8 ≤ i.val ∧ i.val ≤ 31 ∧ op = 1) ∨
          (i.val ≤ 31 ∧ (op = 0 ∨ op = 5 ∨ op = 6 ∨ 7 ≤ op.toNat))) ∧
    (∀ i : Instr, CmdWord.canonical (encode i) = true) ∧
    (∀ (rate : Freq) (l : AsmLine) (w : CmdWord), assembleWord rate l = .ok w → CmdWord.canonical w = true) ∧
    (∀ (rate : Freq) (w : CmdWord),
      ∃ w', assembleWord rate (disassemble (decode w)) = .ok w' ∧ CmdWord.canonical w' = true)

/-- Words of every family, written out from the worked encodings, decode to their commands. -/
def Obligations.WorkedWordsDecode : Prop :=
  decode 0x0000000000 = .nop ∧ decode 0x1000000002 = .begin 2 ∧ decode 0x1FABCDEF02 = .begin 2 ∧
    decode 0x2000020100 = .setwave 0 1 2 0 ∧ decode 0x3801234567 = .settw 2 0x01234567 ∧
    decode 0x40010080FF = .setvol 255 128 0 1 ∧ decode 0x5FFFFFFFFF = .suspend ∧ decode 0x6000000000 = .resume ∧
    decode 0xF012345678 = .nop

/-! ### The step -/

/-- When the next event is ACCEPT and HOST presents `w`, the step is the command that `w` decodes to, run on the state
with that event used up and, if the port is ready, the word taken from the port. (Agenda, command port and withFetchWord
are the model's choice: log entries 1, 2 and 7.) -/
def Obligations.StepRunsTheDecodedCommand : Prop :=
  (∀ (s : State) (w : CmdWord) (es : List Event), s.agenda = .accept :: es → s.cmdPort = some w →
      (cmdReady s = true → step s = exec (decode w) { s with agenda := es, cmdPort := none }) ∧
        (cmdReady s = false → step s = exec (decode w) { s with agenda := es })) ∧
    (∀ (s : State) (w : CmdWord), cmdReady s = true →
      step (s.withFetchWord 40 w.toNat) = exec (decode w) { s with cmdPort := none })

/-- As many steps as the agenda has events perform those events in order, whatever follows on the agenda: every finite
interleaving of the agents is an execution of the machine. (The agenda is the model's choice: log entry 1.) -/
def Obligations.AgendaIsPerformedInOrder : Prop :=
  ∀ (es rest : List Event) (s : State), s.agenda = es ++ rest →
    Sys2Proof.core.run es.length s = runEvents es { s with agenda := rest }

/-- No step, no event and no command ever faults or is refused. -/
def Obligations.NothingEverFaults : Prop :=
  (∀ s : State, ∃ t, step s = .next t) ∧ (∀ (e : Event) (s : State), ∃ t, runEvent e s = .next t) ∧
    (∀ (i : Instr) (s : State), ∃ t, exec i s = .next t)

/-- An event that R8 does not enable changes nothing. (The model's choice where the spec has no such step: log entry 8.) -/
def Obligations.DisabledEventsChangeNothing : Prop :=
  ∀ (rom : RomTable) (e : Event) (s : State), enabled e s = false → runEventWith rom e s = .next s

/-! ### The commands -/

/-- NOP, and any word with opcode 0, changes nothing; the canonical word is 0; while the port is not ready it waits. -/
def Obligations.NopChangesNothing : Prop :=
  (∀ s : State, exec .nop s = .next s) ∧
    (∀ w : CmdWord, (opField w).toNat = 0 → decode w = .nop) ∧ encode .nop = 0 ∧
    (∀ s : State, cmdReady s = false → ∀ w : CmdWord, s.cmdPort = some w → runEvent .accept s = .next s)

/-- A word with a reserved opcode is accepted, leaving the port, and changes no state; no command encodes to one.
(That an accepted word leaves the port is the model's choice: log entry 2.) -/
def Obligations.ReservedOpcodesChangeNothing : Prop :=
  (∀ (w : CmdWord) (s : State), 7 ≤ (opField w).toNat → exec (decode w) s = .next s) ∧
    (∀ (w : CmdWord) (s : State), 7 ≤ (opField w).toNat → s.cmdPort = some w → cmdReady s = true →
      runEvent .accept s = .next { s with cmdPort := none }) ∧
    (∀ i : Instr, (opField (encode i)).toNat ≤ 6)

/-- SETTW writes the tuning word of its voice and nothing else; the port stays ready. -/
def Obligations.SettwWritesOneTuningWord : Prop :=
  ∀ (s : State) (v : Voice) (t : Word), cmdReady s = true →
    ∃ u, exec (.settw v t) s = .next u ∧ u.tw.get v = t ∧ (∀ j, j ≠ v → u.tw.get j = s.tw.get j) ∧
      u = { s with tw := u.tw } ∧ cmdReady u = true

/-- SETWAVE queues one normalised kind per voice and writes nothing else; the port is no longer ready. -/
def Obligations.SetwaveQueuesFourKinds : Prop :=
  ∀ (s : State) (b0 b1 b2 b3 : Byte), cmdReady s = true →
    ∃ u, exec (.setwave b0 b1 b2 b3) s = .next u ∧
      u.pendKind.get 0 = some (fallbackCode b0) ∧ u.pendKind.get 1 = some (fallbackCode b1) ∧
      u.pendKind.get 2 = some (fallbackCode b2) ∧ u.pendKind.get 3 = some (fallbackCode b3) ∧
      u = { s with pendKind := u.pendKind } ∧ cmdReady u = false

/-- SETVOL queues one amplitude per voice and writes nothing else; the port is no longer ready. -/
def Obligations.SetvolQueuesFourAmplitudes : Prop :=
  ∀ (s : State) (b0 b1 b2 b3 : Byte), cmdReady s = true →
    ∃ u, exec (.setvol b0 b1 b2 b3) s = .next u ∧
      u.pendAmp.get 0 = some b0 ∧ u.pendAmp.get 1 = some b1 ∧ u.pendAmp.get 2 = some b2 ∧ u.pendAmp.get 3 = some b3 ∧
      u = { s with pendAmp := u.pendAmp } ∧ cmdReady u = false

/-- The first BEGIN chooses the mode, centres the bias and starts sample production; it writes nothing else. -/
def Obligations.FirstBeginStartsProduction : Prop :=
  ∀ (s : State) (m : Byte), cmdReady s = true → s.begun = false →
    ∃ u, exec (.begin m) s = .next u ∧ u.mode = fallbackCode m ∧ u.bias = 127 ∧ u.begun = true ∧ u.running = true ∧
      u = { s with mode := u.mode, bias := u.bias, begun := u.begun, running := u.running } ∧ cmdReady u = true

/-- A BEGIN while `begun = 1` changes nothing; the mode is fixed until RESET, and only RESET clears `begun`. -/
def Obligations.SecondBeginChangesNothing : Prop :=
  (∀ (s : State) (m : Byte), s.begun = true → exec (.begin m) s = .next s) ∧
    (∀ (e : Event) (s t : State), s.begun = true → runEvent e s = .next t → e ≠ .reset →
      t.begun = true ∧ t.mode = s.mode)

/-- SUSPEND of a block that is not Suspended raises `ramping` and writes nothing else; the port is no longer ready and
sample production goes on as it was. -/
def Obligations.SuspendStartsTheRamp : Prop :=
  ∀ s : State, cmdReady s = true → ¬ (s.running = false ∧ s.bias = 127) →
    ∃ u, exec .suspend s = .next u ∧ u.ramping = true ∧ u = { s with ramping := u.ramping } ∧ cmdReady u = false ∧
      controller u = .rampingDown ∧ sclkEn u = sclkEn s

/-- SUSPEND of a Suspended block changes nothing, no ramp follows, and any number of SUSPENDs is the same as one. (That
an accepted word leaves the port is the model's choice: log entry 2.) -/
def Obligations.SuspendWhenSuspendedIsNoOp : Prop :=
  ∀ s : State, cmdReady s = true → s.running = false → s.bias = 127 →
    exec .suspend s = .next s ∧ enabled .rstep s = false ∧ enabled .rdone s = false ∧
      (∀ (w : CmdWord) (n : Nat), (opField w).toNat = 5 → s.cmdPort = none →
        runEvents (List.replicate n (offerEvents w)).flatten s = .next s)

/-- RESUME enables sample production once a BEGIN has been performed, and does nothing before that. -/
def Obligations.ResumeEnablesProduction : Prop :=
  (∀ s : State, cmdReady s = true → s.begun = true →
      ∃ u, exec .resume s = .next u ∧ u.running = true ∧ u = { s with running := u.running } ∧ cmdReady u = true) ∧
    (∀ s : State, s.begun = false → exec .resume s = .next s)

/-- While the port is not ready every command waits: nothing changes, and the word stays on the port; a
word that is accepted leaves it. (How R52 is read here: log entries 2 and 4.) -/
def Obligations.CommandsWaitWhileThePortIsBusy : Prop :=
  (∀ (i : Instr) (s : State), cmdReady s = false → exec i s = .next s) ∧
    (∀ s : State, cmdReady s = false → runEvent .accept s = .next s) ∧
    (∀ (s t : State) (w : CmdWord), cmdReady s = true → s.cmdPort = some w → runEvent .accept s = .next t →
      t.cmdPort = none)

/-- Performing a configuration command twice, with all commits done each time, leaves the same configuration as
performing it once, whatever the order of the commits and whatever other events fall between that neither accept a
command nor reset; where nothing but commits falls between, it leaves the same state. -/
def Obligations.ConfigurationIsIdempotent : Prop :=
  ∀ (rom : RomTable) (w : CmdWord) (s : State) (es fs : List Event), 2 ≤ (opField w).toNat → (opField w).toNat ≤ 4 →
    cmdReady s = true → .accept ∉ es → .reset ∉ es → .accept ∉ fs → .reset ∉ fs →
    ∃ t u, runEventsWith rom (offerEvents w ++ es) s = .next t ∧ runEventsWith rom (offerEvents w ++ fs) t = .next u ∧
      (cmdReady t = true → cmdReady u = true →
        u.tw = t.tw ∧ u.kind = t.kind ∧ u.amp = t.amp ∧ u.pendKind = t.pendKind ∧ u.pendAmp = t.pendAmp ∧
          ((∀ e ∈ es ++ fs, ∃ f i, e = .commit f i) → u = t))

/-! ### The internal events -/

/-- A COMMIT performs exactly one pending write and removes its entry. -/
def Obligations.CommitPerformsOneWrite : Prop :=
  (∀ (s : State) (i : Voice) (k : KindCode), s.pendKind.get i = some k →
      ∃ u, runEvent (.commit .kind i) s = .next u ∧ u.kind.get i = k ∧ u.pendKind.get i = none ∧
        (∀ j, j ≠ i → u.kind.get j = s.kind.get j ∧ u.pendKind.get j = s.pendKind.get j) ∧
        u = { s with kind := u.kind, pendKind := u.pendKind }) ∧
    (∀ (s : State) (i : Voice) (a : Byte), s.pendAmp.get i = some a →
      ∃ u, runEvent (.commit .amp i) s = .next u ∧ u.amp.get i = a ∧ u.pendAmp.get i = none ∧
        (∀ j, j ≠ i → u.amp.get j = s.amp.get j ∧ u.pendAmp.get j = s.pendAmp.get j) ∧
        u = { s with amp := u.amp, pendAmp := u.pendAmp })

/-- A TICK of a running block advances every phase modulo 2^32, looks every voice up at its advanced phase, and produces
the sum of the contributions and the bias modulo 256; nothing else changes, and a block that is not running drops it. -/
def Obligations.TickProducesOneSample : Prop :=
  (∀ (rom : RomTable) (s : State), s.running = true →
      ∃ u, runEventWith rom .tick s = .next u ∧
        (∀ i : Voice, (u.ph.get i).toNat = ((s.ph.get i).toNat + (s.tw.get i).toNat) % 2 ^ 32) ∧
        (u.level.toNat : Int) =
          ((s.bias.toNat : Int) + ∑ i : Voice, contribution rom (u.ph.get i).toNat (s.kind.get i) (s.amp.get i)) % 256 ∧
        u.trace = s.trace ++ [u.level] ∧
        u = { s with ph := u.ph, level := u.level, trace := u.trace }) ∧
    (∀ (rom : RomTable) (s : State), s.running = false → runEventWith rom .tick s = .next s)

/-- RSTEP moves the bias one unit toward 127 and writes nothing else. -/
def Obligations.RstepMovesTheBiasOneUnit : Prop :=
  ∀ s : State, s.ramping = true → s.bias ≠ 127 →
    ∃ u, runEvent .rstep s = .next u ∧ u = { s with bias := u.bias } ∧
      (127 < s.bias.toNat → u.bias.toNat + 1 = s.bias.toNat ∧ 127 ≤ u.bias.toNat) ∧
      (s.bias.toNat < 127 → u.bias.toNat = s.bias.toNat + 1 ∧ u.bias.toNat ≤ 127) ∧
      biasDistance u.bias + 1 = biasDistance s.bias

/-- RDONE stops sample production, zeroes the four phases and ends the ramp in one step; the configuration survives. -/
def Obligations.RdoneEndsTheRamp : Prop :=
  ∀ s : State, s.ramping = true → s.bias = 127 →
    ∃ u, runEvent .rdone s = .next u ∧ u.running = false ∧ u.ramping = false ∧ (∀ i : Voice, u.ph.get i = 0) ∧
      u = { s with running := u.running, ramping := u.ramping, ph := u.ph } ∧ controller u = .suspended

/-- RESET gives every piece of state its reset value from any state, appends nothing to the level trace, and leaves the
block Suspended, ready and with both paths disabled; State.reset has the same values. (That the trace is kept through RESET is the
model's choice: log entry 6.) -/
def Obligations.ResetValues : Prop :=
  atResetValues State.reset ∧
    ∀ s : State, ∃ u, runEvent .reset s = .next u ∧ atResetValues u ∧ u.trace = s.trace ∧ controller u = .suspended ∧
      cmdReady u = true ∧ sclkEn u = false ∧ levelOut u = 127 ∧ modeOut u = 0 ∧ pathAEn u = false ∧ pathBEn u = false

/-- Which event writes which state, for every event and every field of State. (The clauses of the model's own fields are
its choice: the port, log entry 2; the trace, which RESET keeps, log entry 6; the agenda and the counter, which no event
writes, log entry 1.) -/
def Obligations.WriteMatrix : Prop :=
  ∀ (e : Event) (s t : State), runEvent e s = .next t →
    (t.ph ≠ s.ph → e = .tick ∨ e = .rdone ∨ e = .reset) ∧
    (t.tw ≠ s.tw → (e = .accept ∧ ∃ w v x, s.cmdPort = some w ∧ decode w = .settw v x) ∨ e = .reset) ∧
    (t.kind ≠ s.kind → (∃ i, e = .commit .kind i) ∨ e = .reset) ∧
    (t.amp ≠ s.amp → (∃ i, e = .commit .amp i) ∨ e = .reset) ∧
    (t.mode ≠ s.mode → (e = .accept ∧ ∃ w m, s.cmdPort = some w ∧ decode w = .begin m) ∨ e = .reset) ∧
    (t.begun ≠ s.begun → (e = .accept ∧ ∃ w m, s.cmdPort = some w ∧ decode w = .begin m) ∨ e = .reset) ∧
    (t.running ≠ s.running →
      (e = .accept ∧ ∃ w, s.cmdPort = some w ∧ ((∃ m, decode w = .begin m) ∨ decode w = .resume)) ∨ e = .rdone ∨
        e = .reset) ∧
    (t.ramping ≠ s.ramping →
      (e = .accept ∧ ∃ w, s.cmdPort = some w ∧ decode w = .suspend) ∨ e = .rdone ∨ e = .reset) ∧
    (t.bias ≠ s.bias →
      (e = .accept ∧ ∃ w m, s.cmdPort = some w ∧ decode w = .begin m) ∨ e = .rstep ∨ e = .reset) ∧
    (t.level ≠ s.level → e = .tick ∨ e = .reset) ∧
    (t.pendKind ≠ s.pendKind →
      (e = .accept ∧ ∃ w a b c d, s.cmdPort = some w ∧ decode w = .setwave a b c d) ∨ (∃ i, e = .commit .kind i) ∨
        e = .reset) ∧
    (t.pendAmp ≠ s.pendAmp →
      (e = .accept ∧ ∃ w a b c d, s.cmdPort = some w ∧ decode w = .setvol a b c d) ∨ (∃ i, e = .commit .amp i) ∨
        e = .reset) ∧
    (t.trace ≠ s.trace → e = .tick) ∧
    (t.cmdPort ≠ s.cmdPort →
      (∃ w, e = .present w) ∨ e = .withdraw ∨ (e = .accept ∧ cmdReady s = true ∧ ∃ w, s.cmdPort = some w)) ∧
    t.agenda = s.agenda ∧ t.turn = s.turn

/-! ### The sample path -/

/-- The lookup multiplexer: three tables, and code 3 reads Sine; the ROM address is the kind code above the index. -/
def Obligations.LookupFallsBackToSine : Prop :=
  ∀ (rom : RomTable) (n : Byte),
    romRead rom 0 n = rom .sine n ∧ romRead rom 1 n = rom .square n ∧ romRead rom 2 n = rom .ramp n ∧
      romRead rom 3 n = rom .sine n ∧
      (∀ k : KindCode, (romAddr k n).toNat = k.toNat * 256 + n.toNat ∧ romAt rom (romAddr k n) = romRead rom k n)

/-- The scaler: an exact product, the floor of its quotient by 256, in -128..126, with the identities of its corner
cases. -/
def Obligations.ScalerRoundsTowardMinusInfinity : Prop :=
  ∀ raw amp : Byte,
    -32640 ≤ raw.toInt * (amp.toNat : Int) ∧ raw.toInt * (amp.toNat : Int) ≤ 32385 ∧
      scaleSample raw amp = ⌊((raw.toInt * (amp.toNat : Int) : Int) : ℚ) / 256⌋ ∧
      -128 ≤ scaleSample raw amp ∧ scaleSample raw amp ≤ 126 ∧
      (amp = 0 → scaleSample raw amp = 0) ∧ (raw = 0 → scaleSample raw amp = 0) ∧
      (raw.toInt < 0 → amp ≠ 0 → scaleSample raw amp ≤ -1) ∧
      (amp = 255 → 0 < raw.toInt → scaleSample raw amp = raw.toInt - 1) ∧
      (amp = 255 → raw.toInt ≤ 0 → scaleSample raw amp = raw.toInt)

/-- The adder tree: the exact sum of the four contributions, in -512..504, whatever the order of the voices. -/
def Obligations.SumIsExactInAnyOrder : Prop :=
  ∀ (rom : RomTable) (s : State) (σ : Equiv.Perm Voice),
    mixSum rom s =
        ∑ i : Voice, contribution rom ((advancedPhases s).get (σ i)).toNat (s.kind.get (σ i)) (s.amp.get (σ i)) ∧
      -512 ≤ mixSum rom s ∧ mixSum rom s ≤ 504

/-- The output level is the biased sum modulo 256; with the bias centred it does not wrap exactly for the sums -127 to
128. -/
def Obligations.LevelWrapsOutsideTheHeadroom : Prop :=
  ∀ (bias : Byte) (sum : Int),
    ((outputLevel bias sum).toNat : Int) = ((bias.toNat : Int) + sum) % 256 ∧
      (bias = 127 → (((outputLevel bias sum).toNat : Int) = 127 + sum ↔ inHeadroom sum))

/-- Amplitudes whose rounded-up halves add up to at most 127 keep the mix inside the headroom, for any ROM. -/
def Obligations.SmallAmplitudesNeverWrap : Prop :=
  ∀ (rom : RomTable) (s : State), s.bias = 127 → ∑ i : Voice, ((s.amp.get i).toNat + 1) / 2 ≤ 127 →
    inHeadroom (mixSum rom s) ∧ ((outputLevel s.bias (mixSum rom s)).toNat : Int) = 127 + mixSum rom s

/-- The datapath at the spec's widths (a 16-bit product, an 11-bit sum) produces the level that the integers give. -/
def Obligations.DatapathWidthsSuffice : Prop :=
  ∀ (rom : RomTable) (s : State), datapathLevel rom s = outputLevel s.bias (mixSum rom s)

/-- After N TICKs the phase of a voice has advanced by N of its tuning words modulo 2^32, whatever other events fall
between: commands are accepted, but for a SETTW that gives the voice another tuning word, and no ramp ends and no RESET
happens. -/
def Obligations.PhaseAfterManyTicks : Prop :=
  ∀ (rom : RomTable) (es : List Event) (s : State) (i : Voice), s.running = true →
    alongRun (keepsTone i) rom es s = true →
    ∃ t, runEventsWith rom es s = .next t ∧ t.tw.get i = s.tw.get i ∧
      (t.ph.get i).toNat = ((s.ph.get i).toNat + es.count .tick * (s.tw.get i).toNat) % 2 ^ 32

/-- A sounding voice is at the phase it started from exactly when the number of TICKs is a multiple of its repeat
period, whatever other events fall between that keep its tone. -/
def Obligations.PhaseRepeatsWithThePeriod : Prop :=
  ∀ (rom : RomTable) (es : List Event) (s : State) (i : Voice), s.running = true →
    alongRun (keepsTone i) rom es s = true →
    ∃ t, runEventsWith rom es s = .next t ∧
      (t.ph.get i = s.ph.get i ↔ repeatPeriod (s.tw.get i) ∣ es.count .tick)

/-- With every amplitude 0 a TICK produces the bias, for every ROM, phase, tuning word and kind; the phases advance all
the same. -/
def Obligations.SilentVoicesProduceTheBias : Prop :=
  ∀ (rom : RomTable) (s : State), s.running = true → (∀ i : Voice, s.amp.get i = 0) →
    ∃ t, runEventWith rom .tick s = .next t ∧ t.level = s.bias ∧ t.trace = s.trace ++ [s.bias] ∧
      ∀ i : Voice, t.ph.get i = s.ph.get i + s.tw.get i

/-- One voice at amplitude 255, the others at 0: the level is the table entry, one less when positive, offset by 127;
it wraps only for the entry -128. -/
def Obligations.OneVoiceAtFullScale : Prop :=
  ∀ (rom : RomTable) (s : State) (j : Voice), s.running = true → s.bias = 127 → s.amp.get j = 255 →
    (∀ i : Voice, i ≠ j → s.amp.get i = 0) →
    ∃ t raw, runEventWith rom .tick s = .next t ∧
      raw = (romRead rom (s.kind.get j) (BitVec.ofNat 8 ((t.ph.get j).toNat / 2 ^ 24))).toInt ∧
      (0 < raw → (t.level.toNat : Int) = 127 + (raw - 1)) ∧
      (raw ≤ 0 → raw ≠ -128 → (t.level.toNat : Int) = 127 + raw) ∧
      (raw = -128 → t.level = 255)

/-- The mode does not enter the samples: two machines that differ only in the mode produce the same level trace under
the same events, and still differ at most in the mode. -/
def Obligations.ModeDoesNotEnterTheSamples : Prop :=
  ∀ (rom : RomTable) (es : List Event) (s : State) (m : ModeCode),
    ∃ t t', runEventsWith rom es s = .next t ∧ runEventsWith rom es { s with mode := m } = .next t' ∧
      t'.trace = t.trace ∧ t'.level = t.level ∧ t' = { t with mode := t'.mode }

/-! ### Configuration while samples are produced -/

/-- While the four writes of a SETVOL or SETWAVE are being committed, in any order and with any events between that
neither accept a command nor reset, every voice has its old value or its new one. -/
def Obligations.EachVoiceIsOldOrNew : Prop :=
  ∀ (rom : RomTable) (s u : State) (b : Quad Byte) (es : List Event), cmdReady s = true → .accept ∉ es → .reset ∉ es →
    (exec (.setvol b.v0 b.v1 b.v2 b.v3) s = .next u →
      ∃ t, runEventsWith rom es u = .next t ∧ t.kind = s.kind ∧
        ∀ i : Voice, t.amp.get i = s.amp.get i ∨ t.amp.get i = b.get i) ∧
    (exec (.setwave b.v0 b.v1 b.v2 b.v3) s = .next u →
      ∃ t, runEventsWith rom es u = .next t ∧ t.amp = s.amp ∧
        ∀ i : Voice, t.kind.get i = s.kind.get i ∨ t.kind.get i = fallbackCode (b.get i))

/-- Once each of the four writes has been committed, in any order and with any events between that neither accept a
command nor reset, every voice has its new value and the port is ready; an unrecognised kind has become Sine. (A
later ACCEPT belongs to the next command.) -/
def Obligations.AnyCommitOrderSetsAllVoices : Prop :=
  ∀ (rom : RomTable) (s u : State) (b : Quad Byte) (es : List Event), cmdReady s = true → .accept ∉ es → .reset ∉ es →
    (exec (.setvol b.v0 b.v1 b.v2 b.v3) s = .next u → (∀ i : Voice, .commit .amp i ∈ es) →
      ∃ t, runEventsWith rom es u = .next t ∧ cmdReady t = true ∧ ∀ i : Voice, t.amp.get i = b.get i) ∧
    (exec (.setwave b.v0 b.v1 b.v2 b.v3) s = .next u → (∀ i : Voice, .commit .kind i ∈ es) →
      ∃ t, runEventsWith rom es u = .next t ∧ cmdReady t = true ∧
        ∀ i : Voice, t.kind.get i = fallbackCode (b.get i))

/-- A SETVOL or SETWAVE is followed by exactly four COMMITs before the port is ready for the next command, whatever
other events fall between that neither accept a command nor reset. -/
def Obligations.FourCommitsCompleteACommand : Prop :=
  ∀ (rom : RomTable) (s u t : State) (b : Quad Byte) (es : List Event),
    cmdReady s = true → .accept ∉ es → .reset ∉ es →
    (exec (.setvol b.v0 b.v1 b.v2 b.v3) s = .next u ∨ exec (.setwave b.v0 b.v1 b.v2 b.v3) s = .next u) →
    runEventsWith rom es u = .next t →
      pendingCount u = 4 ∧ commitsTaken rom es u + pendingCount t = 4 ∧
        (cmdReady t = true ↔ commitsTaken rom es u = 4)

/-- Under weak fairness of the internal agents (as log entry 21 writes it) the command port is ready again and again: every configuration call and
every suspend returns. -/
def Obligations.EveryCallReturns : Prop :=
  ∀ (r : Nat → State) (ev : Nat → Event), IsRun r ev → FairAgents r ev → ∀ n, ∃ m, n ≤ m ∧ cmdReady (r m) = true

/-- The reference instance's clock cycle: a TICK that coincides with a command is computed from the values before the
command, and the command is accepted after it. (The model's choice: the pins
are set first in the cycle, log entry 17, and the accepted word leaves the port, log entry 2.) -/
def Obligations.CoincidingTickUsesTheOldValues : Prop :=
  ∀ (rom : RomTable) (c : Strobes) (s : State) (w : CmdWord), c.rst = false → c.sampleTick = true →
    c.command = some w → s.running = true → cmdReady s = true →
    clockCycle rom c s = exec (decode w) { produceSample rom s with cmdPort := none }

/-- The reference instance's clock cycle is an interleaving that R8 allows, in the order of R124. The events of a cycle
are in that order; each occurs as often as its strobe and its condition at the start of the cycle say, with `rst` nothing
but RESET; if the commits asked for are distinct entries of `pend`, every event is enabled where it happens; and the
machine performs the cycle in as many steps. (The model's choice: the agenda, log entry 1; the pins, which are set first,
and the commits as an argument, log entry 17.) -/
def Obligations.ClockCycleIsAnInterleaving : Prop :=
  ∀ (c : Strobes) (s : State),
    (cycleEvents c s).Pairwise (fun a b => cycleRank a ≤ cycleRank b) ∧
    (cycleEvents c s).count .reset = (if c.rst = true then 1 else 0) ∧
    (cycleEvents c s).count .tick = (if c.rst = false ∧ c.sampleTick = true ∧ s.running = true then 1 else 0) ∧
    (cycleEvents c s).count .rstep =
      (if c.rst = false ∧ c.rampTimer = true ∧ s.ramping = true ∧ s.bias ≠ 127 then 1 else 0) ∧
    (cycleEvents c s).count .rdone =
      (if c.rst = false ∧ c.rampTimer = true ∧ s.ramping = true ∧ s.bias = 127 then 1 else 0) ∧
    (∀ (f : PendField) (i : Voice),
      (cycleEvents c s).count (.commit f i) = if c.rst = false then c.commits.count (f, i) else 0) ∧
    (cycleEvents c s).count .accept =
      (if c.rst = false ∧ c.command ≠ none ∧ cmdReady s = true then 1 else 0) ∧
    (∀ w, (cycleEvents c s).count (.present w) = if c.command = some w then 1 else 0) ∧
    (cycleEvents c s).count .withdraw = (if c.command = none then 1 else 0) ∧
    (c.commits.Nodup → (∀ fi ∈ c.commits, enabled (.commit fi.1 fi.2) s = true) →
      ∀ rom : RomTable, alongRun enabled rom (cycleEvents c s) s = true) ∧
    Sys2Proof.core.run (cycleEvents c s).length (scheduleCycle c s) = clockCycle Config.rom c s

/-! ### The Suspend/Resume Controller -/

/-- HOST's ACCEPT and the ramp's steps are never enabled together. -/
def Obligations.HostAndRampNeverRace : Prop :=
  ∀ s : State, (enabled .accept s = true → enabled .rstep s = false ∧ enabled .rdone s = false) ∧
    ¬ (enabled .rstep s = true ∧ enabled .rdone s = true) ∧
    (∀ t, enabled .rdone s = true → runEvent .rdone s = .next t → enabled .tick t = false)

/-- The controller changes state only along the rows of R105. -/
def Obligations.ControllerTransitions : Prop :=
  ∀ (e : Event) (s t : State), runEvent e s = .next t → controller t ≠ controller s →
    (controller s = .suspended ∧ controller t = .running ∧ e = .accept ∧
        ∃ w, s.cmdPort = some w ∧ (((∃ m, decode w = .begin m) ∧ s.begun = false) ∨ (decode w = .resume ∧ s.begun = true))) ∨
      (controller t = .rampingDown ∧ e = .accept ∧ (∃ w, s.cmdPort = some w ∧ decode w = .suspend) ∧
        (controller s = .running ∨ (controller s = .suspended ∧ s.bias ≠ 127))) ∨
      (controller s = .rampingDown ∧ controller t = .suspended ∧ e = .rdone ∧ s.bias = 127) ∨
      (controller t = .suspended ∧ e = .reset)

/-- The path enables follow the mode once begun; only the first BEGIN and RESET change them. -/
def Obligations.PathEnablesFollowTheMode : Prop :=
  (∀ s : State,
      (s.begun = false → pathAEn s = false ∧ pathBEn s = false) ∧
        (s.begun = true → s.mode = 0 → pathAEn s = true ∧ pathBEn s = false) ∧
        (s.begun = true → s.mode = 1 → pathAEn s = false ∧ pathBEn s = true) ∧
        (s.begun = true → s.mode = 2 → pathAEn s = true ∧ pathBEn s = true)) ∧
    (∀ (e : Event) (s t : State), runEvent e s = .next t → s.begun = true → e ≠ .reset →
      pathAEn t = pathAEn s ∧ pathBEn t = pathBEn s)

/-- During a ramp the bias comes closer to 127 by one for each RSTEP and never crosses it, whatever other events fall
between. -/
def Obligations.RampNeverOvershoots : Prop :=
  ∀ (rom : RomTable) (es : List Event) (s : State), s.ramping = true → .rdone ∉ es → .reset ∉ es →
    ∃ t, runEventsWith rom es s = .next t ∧ t.ramping = true ∧ t.running = s.running ∧
      biasDistance t.bias = biasDistance s.bias - es.count .rstep ∧
      (127 ≤ s.bias.toNat → 127 ≤ t.bias.toNat ∧ t.bias.toNat ≤ s.bias.toNat) ∧
      (s.bias.toNat ≤ 127 → t.bias.toNat ≤ 127 ∧ s.bias.toNat ≤ t.bias.toNat)

/-- Under weak fairness of RSTEP and RDONE (as log entry 21 writes it) a suspend terminates: exactly `|b - 127|` RSTEPs are taken, then one RDONE,
and after it the block is Suspended, centred, at phase 0 and ready. -/
def Obligations.SuspendAlwaysTerminates : Prop :=
  ∀ (r : Nat → State) (ev : Nat → Event), IsRun r ev → WeaklyFair .rstep r ev → WeaklyFair .rdone r ev →
    (∀ n, ev n ≠ .reset) → (r 0).ramping = true → pendEmpty (r 0) = true →
    ∃ n, Taken .rdone r ev n ∧ (∀ m, m ≤ n → (r m).ramping = true) ∧
      ((List.range n).countP fun m => ev m == .rstep && enabled .rstep (r m)) = biasDistance (r 0).bias ∧
      (∀ m, m < n → biasDistance (r (m + 1)).bias =
        biasDistance (r m).bias - (if ev m = .rstep then 1 else 0)) ∧
      (r (n + 1)).bias = 127 ∧ (∀ i : Voice, (r (n + 1)).ph.get i = 0) ∧ (r (n + 1)).running = false ∧
      (r (n + 1)).ramping = false ∧ cmdReady (r (n + 1)) = true

/-- The first sample after a suspend and a resume: every voice is looked up at the top eight bits of its tuning word,
and its phase is its tuning word. -/
def Obligations.FirstSampleAfterResume : Prop :=
  ∀ (rom : RomTable) (s : State) (w : CmdWord), s.ramping = true → s.bias = 127 → s.begun = true →
    pendEmpty s = true → (opField w).toNat = 6 →
    ∃ t, runEventsWith rom ([.rdone] ++ offerEvents w ++ [.tick]) s = .next t ∧ t.ph = s.tw ∧
      (t.level.toNat : Int) =
        (127 + ∑ i : Voice, contribution rom (s.tw.get i).toNat (s.kind.get i) (s.amp.get i)) % 256 ∧
      ∀ i : Voice, (phaseIndex (t.ph.get i) = 0 ↔ (s.tw.get i).toNat < 2 ^ 24)

/-! ### Invariants -/

/-- The state after reset meets the invariants. -/
def Obligations.ResetMeetsTheInvariants : Prop := Invariant State.reset

/-- Every step keeps the invariants, from every state that meets them. -/
def Obligations.StepKeepsTheInvariants : Prop := ∀ s t : State, Invariant s → step s = .next t → Invariant t

/-- Every reachable state meets the invariants; so RSTEP is never enabled in one. -/
def Obligations.ReachableStatesMeetTheInvariants : Prop :=
  ∀ s : State, Reachable s → Invariant s ∧ enabled .rstep s = false

/-! ### The assembler -/

/-- What the assembler does with its arguments: amplitudes modulo 256, tuning words modulo 2^32, kinds and modes other
than 0, 1, 2 to 0, voices outside 0..3 refused and no other line but one with a frequency outside its domain. (Frequencies are
fractions, and the denominator 0 is refused: the model's choice, log entry 12.) -/
def Obligations.AssemblerReducesItsArguments : Prop :=
  (∀ a : Int, ((ampArgByte a).toNat : Int) = a % 256) ∧ (∀ t : Int, ((twArgWord t).toNat : Int) = t % 2 ^ 32) ∧
    (kindArgByte .sine = 0 ∧ kindArgByte .square = 1 ∧ kindArgByte .ramp = 2) ∧
    (∀ n : Int, ((kindArgByte (.code n)).toNat : Int) = if n = 1 ∨ n = 2 then n else 0) ∧
    (modeArgByte none = 0 ∧ modeArgByte (some .sea) = 0 ∧ modeArgByte (some .seb) = 1 ∧ modeArgByte (some .diff) = 2) ∧
    (∀ n : Int, ((modeArgByte (some (.code n))).toNat : Int) = if n = 1 ∨ n = 2 then n else 0) ∧
    (∀ (rate : Freq) (l : AsmLine), (∃ i, assemble rate l = .ok i) ↔ l.wellFormed = true) ∧
    (∀ (rate : Freq) (m : Option ModeArg), assemble rate (.begin m) = .ok (.begin (modeArgByte m))) ∧
    (∀ (rate : Freq) (k0 k1 k2 k3 : KindArg), assemble rate (.setwave k0 k1 k2 k3) =
      .ok (.setwave (kindArgByte k0) (kindArgByte k1) (kindArgByte k2) (kindArgByte k3))) ∧
    (∀ (rate : Freq) (a0 a1 a2 a3 : Int), assemble rate (.setvol a0 a1 a2 a3) =
      .ok (.setvol (ampArgByte a0) (ampArgByte a1) (ampArgByte a2) (ampArgByte a3))) ∧
    (∀ (rate : Freq) (v t : Int), (v < 0 ∨ 3 < v) → assemble rate (.settw v t) = .error .voiceOutOfRange) ∧
    (∀ (rate : Freq) (v t : Int) (i : Voice), v = (i.val : Int) → assemble rate (.settw v t) = .ok (.settw i (twArgWord t)))

/-- The tuning word of a frequency is the nearest integer to `f · 2^32 / SAMPLE_RATE`, ties up, modulo 2^32; a conforming
host library may be one unit off; a negative frequency is refused. (Frequencies are fractions: log entry 12.) -/
def Obligations.TuningWordIsTheRoundedQuotient : Prop :=
  (∀ rate f : Freq, rate.isRate = true → f.wellFormed = true →
      ((tuningWord rate f).toNat : Int) =
        ⌊((f.num : ℝ) / (f.den : ℝ)) * 2 ^ 32 / ((rate.num : ℝ) / (rate.den : ℝ)) + 1 / 2⌋ % 2 ^ 32) ∧
    (∀ (rate f : Freq) (t : Word), tuningWordConforms rate f t = true ↔
      t = tuningWord rate f - 1 ∨ t = tuningWord rate f ∨ t = tuningWord rate f + 1) ∧
    (∀ (rate f : Freq) (v : Int), f.den ≠ 0 → f.num < 0 → assemble rate (.setfreq v f) = .error .negativeFrequency) ∧
    (∀ (rate f : Freq) (v : Voice), f.wellFormed = true →
      assemble rate (.setfreq (v.val : Int) f) = .ok (.settw v (tuningWord rate f)))

/-- A frequency raised by the sample rate has the same tuning word. -/
def Obligations.FrequencyWrapsAtTheSampleRate : Prop :=
  ∀ rate f : Freq, rate.isRate = true → f.wellFormed = true →
    tuningWord rate ⟨f.num * rate.den + rate.num * f.den, f.den * rate.den⟩ = tuningWord rate f

/-- BEGIN without an operand is BEGIN SEA: the same word. -/
def Obligations.BeginWithoutOperandIsSea : Prop :=
  ∀ rate : Freq, assembleWord rate (.begin none) = assembleWord rate (.begin (some .sea)) ∧
    assembleWord rate (.begin none) = .ok 0x1000000000

/-- Assembling what the disassembler prints for a command gives a command with the same effect in every state.
(The names printed for unrecognised bytes are the model's choice: log entry 14.) -/
def Obligations.DisassemblyKeepsTheEffect : Prop :=
  ∀ (rate : Freq) (i : Instr), ∃ j, assemble rate (disassemble i) = .ok j ∧ ∀ s : State, exec j s = exec i s

/-! ### Pitch and time -/

/-- A voice with the negative of a tuning word runs through its phases backwards: as many TICKs as led from one phase to
another lead back, and from a common phase it moves as far the other way. Its pitch is the same, and the pitch of a voice
is the amount by which a TICK moves its phase, either way. -/
def Obligations.AliasedVoiceRunsBackwards : Prop :=
  (∀ (rom : RomTable) (es es' : List Event) (s s' : State) (i : Voice), s.running = true → s'.running = true →
      alongRun (keepsTone i) rom es s = true → alongRun (keepsTone i) rom es' s' = true →
      s'.tw.get i = -(s.tw.get i) → es'.count .tick = es.count .tick →
      ∃ t t', runEventsWith rom es s = .next t ∧ runEventsWith rom es' s' = .next t' ∧
        (s'.ph.get i = t.ph.get i → t'.ph.get i = s.ph.get i) ∧
        (s'.ph.get i = s.ph.get i → t'.ph.get i - s.ph.get i = -(t.ph.get i - s.ph.get i))) ∧
    (∀ (rom : RomTable) (rate : ℚ) (s : State) (i : Voice), s.running = true →
      ∃ t, runEventWith rom .tick s = .next t ∧
        toneHz rate (s.tw.get i) = |((t.ph.get i - s.ph.get i).toInt : ℚ)| * rate / 2 ^ 32) ∧
    (∀ (rate : ℚ) (t : Word), t ≠ 0 → toneHz rate (-t) = toneHz rate t)

/-- Up to Nyquist the pitch of a voice tuned to a frequency is within half a resolution step of that frequency. -/
def Obligations.ToneIsWithinHalfAResolutionStep : Prop :=
  ∀ rate f : Freq, rate.isRate = true → f.wellFormed = true → 2 * hertz f ≤ hertz rate →
    |toneHz (hertz rate) (tuningWord rate f) - hertz f| ≤ frequencyResolution (hertz rate) / 2

/-- A ramp lasts at most 128 step times, no time exactly from the centre, and one step time less after each RSTEP. -/
def Obligations.RampDurationIsBounded : Prop :=
  ∀ (stepTime : ℚ) (s : State), 0 < stepTime →
    0 ≤ rampDuration stepTime s.bias ∧ rampDuration stepTime s.bias ≤ 128 * stepTime ∧
      (rampDuration stepTime s.bias = 0 ↔ s.bias = 127) ∧
      ∀ t, enabled .rstep s = true → runEvent .rstep s = .next t →
        rampDuration stepTime t.bias + stepTime = rampDuration stepTime s.bias
end

