-- ==== Sys2Proof/Laws/Decode.lean ====
section
/-!
SUPPORT. What the fields of a packed word are, and what a four-byte operand gives back: the facts that statements about
the decoder and the encoder rest on.
-/

namespace Sys2Proof

@[simp] theorem opField_packWord (op : BitVec 4) (v rsv : BitVec 2) (imm : Word) :
    opField (packWord op v rsv imm) = op := by
  ext i hi
  simp only [opField, packWord, BitVec.getElem_extractLsb', BitVec.getLsbD_append]
  simp [show ¬ 36 + i < 32 by omega, show ¬ 36 + i - 32 < 2 by omega, show ¬ 36 + i - 32 - 2 < 2 by omega,
    show 36 + i - 32 - 2 - 2 = i by omega, BitVec.getLsbD_eq_getElem hi]

theorem vBits_packWord (op : BitVec 4) (v rsv : BitVec 2) (imm : Word) :
    (packWord op v rsv imm).extractLsb' 34 2 = v := by
  ext i hi
  simp only [packWord, BitVec.getElem_extractLsb', BitVec.getLsbD_append]
  simp [show ¬ 34 + i < 32 by omega, show ¬ 34 + i - 32 < 2 by omega,
    show 34 + i - 32 - 2 = i by omega, hi]

@[simp] theorem vField_packWord (op : BitVec 4) (v rsv : BitVec 2) (imm : Word) :
    (vField (packWord op v rsv imm)).val = v.toNat :=
  congrArg BitVec.toNat (vBits_packWord op v rsv imm)

@[simp] theorem immField_packWord (op : BitVec 4) (v rsv : BitVec 2) (imm : Word) :
    immField (packWord op v rsv imm) = imm := by
  ext i hi
  simp only [immField, packWord, BitVec.getElem_extractLsb', BitVec.getLsbD_append]
  simp [hi]

@[simp] theorem immByte_packBytes (b0 b1 b2 b3 : Byte) (v : Voice) :
    immByte (packBytes b0 b1 b2 b3) v = (Quad.mk b0 b1 b2 b3).get v := by
  ext i hi
  fin_cases v <;>
    simp only [immByte, packBytes, Quad.get, BitVec.getElem_extractLsb', BitVec.getLsbD_append]
  · simp [hi]
  · simp [hi, show ¬ 8 + i < 8 by omega]
  · simp [hi, show ¬ 16 + i < 8 by omega, show ¬ 16 + i - 8 < 8 by omega,
      show 16 + i - 8 - 8 = i by omega]
  · simp [hi, show ¬ 24 + i < 8 by omega, show ¬ 24 + i - 8 < 8 by omega,
      show ¬ 24 + i - 8 - 8 < 8 by omega, show 24 + i - 8 - 8 - 8 = i by omega]

@[simp] theorem immByte_setWidth (m : Byte) : immByte (m.setWidth 32) 0 = m := by
  ext i hi
  simp [immByte, hi, show i < 32 by omega]

end Sys2Proof
end

