-- ==== Sys2Proof/Laws/Quad.lean ====
section
/-!
SUPPORT. The small lemmas of the four-voice container.
-/

namespace Sys2Proof

variable {α β : Type}

theorem Quad.ext_get {p q : Quad α} (h : ∀ i : Voice, p.get i = q.get i) : p = q := by
  obtain ⟨p0, p1, p2, p3⟩ := p
  obtain ⟨q0, q1, q2, q3⟩ := q
  have h0 : p0 = q0 := h 0
  have h1 : p1 = q1 := h 1
  have h2 : p2 = q2 := h 2
  have h3 : p3 = q3 := h 3
  rw [h0, h1, h2, h3]

@[simp] theorem Quad.get_set_self (q : Quad α) (i : Voice) (a : α) : (q.set i a).get i = a := by
  fin_cases i <;> rfl

theorem Quad.get_set_of_ne (q : Quad α) {i j : Voice} (a : α) (h : j ≠ i) : (q.set i a).get j = q.get j := by
  fin_cases i <;> fin_cases j <;> first | rfl | exact absurd rfl h

theorem Quad.get_set (q : Quad α) (i j : Voice) (a : α) : (q.set i a).get j = if j = i then a else q.get j := by
  split
  · next h => rw [h, get_set_self]
  · next h => exact get_set_of_ne q a h

@[simp] theorem Quad.get_fill (a : α) (i : Voice) : (Quad.fill a).get i = a := by
  fin_cases i <;> rfl

@[simp] theorem Quad.get_ofFn (f : Voice → α) (i : Voice) : (Quad.ofFn f).get i = f i := by
  fin_cases i <;> rfl

@[simp] theorem Quad.get_map (f : α → β) (q : Quad α) (i : Voice) : (q.map f).get i = f (q.get i) := by
  fin_cases i <;> rfl

@[simp] theorem Quad.set_get (q : Quad α) (i : Voice) : q.set i (q.get i) = q := by
  fin_cases i <;> rfl

theorem Quad.eq_fill_iff (q : Quad α) (a : α) : q = Quad.fill a ↔ ∀ i : Voice, q.get i = a := by
  refine ⟨fun h i => by rw [h, get_fill], fun h => Quad.ext_get fun i => by rw [h i, get_fill]⟩

theorem Quad.sum_eq (q : Quad Int) : q.sum = q.get 0 + q.get 1 + q.get 2 + q.get 3 := rfl

end Sys2Proof
end

