-- ==== Sys2Proof/Laws/State.lean ====
section
/-!
SUPPORT. What each state update does to each field of State: one lemma per field per update, true by rfl.
-/

namespace Sys2Proof.Machine

variable (s : State)

@[simp] theorem writeTw_ph (v : Voice) (t : Word) : (writeTw s v t).ph = s.ph := rfl
@[simp] theorem writeTw_tw (v : Voice) (t : Word) : (writeTw s v t).tw = s.tw.set v t := rfl
@[simp] theorem writeTw_kind (v : Voice) (t : Word) : (writeTw s v t).kind = s.kind := rfl
@[simp] theorem writeTw_amp (v : Voice) (t : Word) : (writeTw s v t).amp = s.amp := rfl
@[simp] theorem writeTw_mode (v : Voice) (t : Word) : (writeTw s v t).mode = s.mode := rfl
@[simp] theorem writeTw_begun (v : Voice) (t : Word) : (writeTw s v t).begun = s.begun := rfl
@[simp] theorem writeTw_running (v : Voice) (t : Word) : (writeTw s v t).running = s.running := rfl
@[simp] theorem writeTw_ramping (v : Voice) (t : Word) : (writeTw s v t).ramping = s.ramping := rfl
@[simp] theorem writeTw_bias (v : Voice) (t : Word) : (writeTw s v t).bias = s.bias := rfl
@[simp] theorem writeTw_level (v : Voice) (t : Word) : (writeTw s v t).level = s.level := rfl
@[simp] theorem writeTw_pendKind (v : Voice) (t : Word) : (writeTw s v t).pendKind = s.pendKind := rfl
@[simp] theorem writeTw_pendAmp (v : Voice) (t : Word) : (writeTw s v t).pendAmp = s.pendAmp := rfl
@[simp] theorem writeTw_cmdPort (v : Voice) (t : Word) : (writeTw s v t).cmdPort = s.cmdPort := rfl
@[simp] theorem writeTw_trace (v : Voice) (t : Word) : (writeTw s v t).trace = s.trace := rfl
@[simp] theorem writeTw_agenda (v : Voice) (t : Word) : (writeTw s v t).agenda = s.agenda := rfl
@[simp] theorem writeTw_turn (v : Voice) (t : Word) : (writeTw s v t).turn = s.turn := rfl

@[simp] theorem writeKind_ph (i : Voice) (k : KindCode) : (writeKind s i k).ph = s.ph := rfl
@[simp] theorem writeKind_tw (i : Voice) (k : KindCode) : (writeKind s i k).tw = s.tw := rfl
@[simp] theorem writeKind_kind (i : Voice) (k : KindCode) : (writeKind s i k).kind = s.kind.set i k := rfl
@[simp] theorem writeKind_amp (i : Voice) (k : KindCode) : (writeKind s i k).amp = s.amp := rfl
@[simp] theorem writeKind_mode (i : Voice) (k : KindCode) : (writeKind s i k).mode = s.mode := rfl
@[simp] theorem writeKind_begun (i : Voice) (k : KindCode) : (writeKind s i k).begun = s.begun := rfl
@[simp] theorem writeKind_running (i : Voice) (k : KindCode) : (writeKind s i k).running = s.running := rfl
@[simp] theorem writeKind_ramping (i : Voice) (k : KindCode) : (writeKind s i k).ramping = s.ramping := rfl
@[simp] theorem writeKind_bias (i : Voice) (k : KindCode) : (writeKind s i k).bias = s.bias := rfl
@[simp] theorem writeKind_level (i : Voice) (k : KindCode) : (writeKind s i k).level = s.level := rfl
@[simp] theorem writeKind_pendKind (i : Voice) (k : KindCode) : (writeKind s i k).pendKind = s.pendKind := rfl
@[simp] theorem writeKind_pendAmp (i : Voice) (k : KindCode) : (writeKind s i k).pendAmp = s.pendAmp := rfl
@[simp] theorem writeKind_cmdPort (i : Voice) (k : KindCode) : (writeKind s i k).cmdPort = s.cmdPort := rfl
@[simp] theorem writeKind_trace (i : Voice) (k : KindCode) : (writeKind s i k).trace = s.trace := rfl
@[simp] theorem writeKind_agenda (i : Voice) (k : KindCode) : (writeKind s i k).agenda = s.agenda := rfl
@[simp] theorem writeKind_turn (i : Voice) (k : KindCode) : (writeKind s i k).turn = s.turn := rfl

@[simp] theorem writeAmp_ph (i : Voice) (a : Byte) : (writeAmp s i a).ph = s.ph := rfl
@[simp] theorem writeAmp_tw (i : Voice) (a : Byte) : (writeAmp s i a).tw = s.tw := rfl
@[simp] theorem writeAmp_kind (i : Voice) (a : Byte) : (writeAmp s i a).kind = s.kind := rfl
@[simp] theorem writeAmp_amp (i : Voice) (a : Byte) : (writeAmp s i a).amp = s.amp.set i a := rfl
@[simp] theorem writeAmp_mode (i : Voice) (a : Byte) : (writeAmp s i a).mode = s.mode := rfl
@[simp] theorem writeAmp_begun (i : Voice) (a : Byte) : (writeAmp s i a).begun = s.begun := rfl
@[simp] theorem writeAmp_running (i : Voice) (a : Byte) : (writeAmp s i a).running = s.running := rfl
@[simp] theorem writeAmp_ramping (i : Voice) (a : Byte) : (writeAmp s i a).ramping = s.ramping := rfl
@[simp] theorem writeAmp_bias (i : Voice) (a : Byte) : (writeAmp s i a).bias = s.bias := rfl
@[simp] theorem writeAmp_level (i : Voice) (a : Byte) : (writeAmp s i a).level = s.level := rfl
@[simp] theorem writeAmp_pendKind (i : Voice) (a : Byte) : (writeAmp s i a).pendKind = s.pendKind := rfl
@[simp] theorem writeAmp_pendAmp (i : Voice) (a : Byte) : (writeAmp s i a).pendAmp = s.pendAmp := rfl
@[simp] theorem writeAmp_cmdPort (i : Voice) (a : Byte) : (writeAmp s i a).cmdPort = s.cmdPort := rfl
@[simp] theorem writeAmp_trace (i : Voice) (a : Byte) : (writeAmp s i a).trace = s.trace := rfl
@[simp] theorem writeAmp_agenda (i : Voice) (a : Byte) : (writeAmp s i a).agenda = s.agenda := rfl
@[simp] theorem writeAmp_turn (i : Voice) (a : Byte) : (writeAmp s i a).turn = s.turn := rfl

@[simp] theorem queueKinds_ph (k : Quad KindCode) : (queueKinds s k).ph = s.ph := rfl
@[simp] theorem queueKinds_tw (k : Quad KindCode) : (queueKinds s k).tw = s.tw := rfl
@[simp] theorem queueKinds_kind (k : Quad KindCode) : (queueKinds s k).kind = s.kind := rfl
@[simp] theorem queueKinds_amp (k : Quad KindCode) : (queueKinds s k).amp = s.amp := rfl
@[simp] theorem queueKinds_mode (k : Quad KindCode) : (queueKinds s k).mode = s.mode := rfl
@[simp] theorem queueKinds_begun (k : Quad KindCode) : (queueKinds s k).begun = s.begun := rfl
@[simp] theorem queueKinds_running (k : Quad KindCode) : (queueKinds s k).running = s.running := rfl
@[simp] theorem queueKinds_ramping (k : Quad KindCode) : (queueKinds s k).ramping = s.ramping := rfl
@[simp] theorem queueKinds_bias (k : Quad KindCode) : (queueKinds s k).bias = s.bias := rfl
@[simp] theorem queueKinds_level (k : Quad KindCode) : (queueKinds s k).level = s.level := rfl
@[simp] theorem queueKinds_pendKind (k : Quad KindCode) : (queueKinds s k).pendKind = k.map some := rfl
@[simp] theorem queueKinds_pendAmp (k : Quad KindCode) : (queueKinds s k).pendAmp = s.pendAmp := rfl
@[simp] theorem queueKinds_cmdPort (k : Quad KindCode) : (queueKinds s k).cmdPort = s.cmdPort := rfl
@[simp] theorem queueKinds_trace (k : Quad KindCode) : (queueKinds s k).trace = s.trace := rfl
@[simp] theorem queueKinds_agenda (k : Quad KindCode) : (queueKinds s k).agenda = s.agenda := rfl
@[simp] theorem queueKinds_turn (k : Quad KindCode) : (queueKinds s k).turn = s.turn := rfl

@[simp] theorem queueAmps_ph (a : Quad Byte) : (queueAmps s a).ph = s.ph := rfl
@[simp] theorem queueAmps_tw (a : Quad Byte) : (queueAmps s a).tw = s.tw := rfl
@[simp] theorem queueAmps_kind (a : Quad Byte) : (queueAmps s a).kind = s.kind := rfl
@[simp] theorem queueAmps_amp (a : Quad Byte) : (queueAmps s a).amp = s.amp := rfl
@[simp] theorem queueAmps_mode (a : Quad Byte) : (queueAmps s a).mode = s.mode := rfl
@[simp] theorem queueAmps_begun (a : Quad Byte) : (queueAmps s a).begun = s.begun := rfl
@[simp] theorem queueAmps_running (a : Quad Byte) : (queueAmps s a).running = s.running := rfl
@[simp] theorem queueAmps_ramping (a : Quad Byte) : (queueAmps s a).ramping = s.ramping := rfl
@[simp] theorem queueAmps_bias (a : Quad Byte) : (queueAmps s a).bias = s.bias := rfl
@[simp] theorem queueAmps_level (a : Quad Byte) : (queueAmps s a).level = s.level := rfl
@[simp] theorem queueAmps_pendKind (a : Quad Byte) : (queueAmps s a).pendKind = s.pendKind := rfl
@[simp] theorem queueAmps_pendAmp (a : Quad Byte) : (queueAmps s a).pendAmp = a.map some := rfl
@[simp] theorem queueAmps_cmdPort (a : Quad Byte) : (queueAmps s a).cmdPort = s.cmdPort := rfl
@[simp] theorem queueAmps_trace (a : Quad Byte) : (queueAmps s a).trace = s.trace := rfl
@[simp] theorem queueAmps_agenda (a : Quad Byte) : (queueAmps s a).agenda = s.agenda := rfl
@[simp] theorem queueAmps_turn (a : Quad Byte) : (queueAmps s a).turn = s.turn := rfl

@[simp] theorem dropPendKind_ph (i : Voice) : (dropPendKind s i).ph = s.ph := rfl
@[simp] theorem dropPendKind_tw (i : Voice) : (dropPendKind s i).tw = s.tw := rfl
@[simp] theorem dropPendKind_kind (i : Voice) : (dropPendKind s i).kind = s.kind := rfl
@[simp] theorem dropPendKind_amp (i : Voice) : (dropPendKind s i).amp = s.amp := rfl
@[simp] theorem dropPendKind_mode (i : Voice) : (dropPendKind s i).mode = s.mode := rfl
@[simp] theorem dropPendKind_begun (i : Voice) : (dropPendKind s i).begun = s.begun := rfl
@[simp] theorem dropPendKind_running (i : Voice) : (dropPendKind s i).running = s.running := rfl
@[simp] theorem dropPendKind_ramping (i : Voice) : (dropPendKind s i).ramping = s.ramping := rfl
@[simp] theorem dropPendKind_bias (i : Voice) : (dropPendKind s i).bias = s.bias := rfl
@[simp] theorem dropPendKind_level (i : Voice) : (dropPendKind s i).level = s.level := rfl
@[simp] theorem dropPendKind_pendKind (i : Voice) : (dropPendKind s i).pendKind = s.pendKind.set i none := rfl
@[simp] theorem dropPendKind_pendAmp (i : Voice) : (dropPendKind s i).pendAmp = s.pendAmp := rfl
@[simp] theorem dropPendKind_cmdPort (i : Voice) : (dropPendKind s i).cmdPort = s.cmdPort := rfl
@[simp] theorem dropPendKind_trace (i : Voice) : (dropPendKind s i).trace = s.trace := rfl
@[simp] theorem dropPendKind_agenda (i : Voice) : (dropPendKind s i).agenda = s.agenda := rfl
@[simp] theorem dropPendKind_turn (i : Voice) : (dropPendKind s i).turn = s.turn := rfl

@[simp] theorem dropPendAmp_ph (i : Voice) : (dropPendAmp s i).ph = s.ph := rfl
@[simp] theorem dropPendAmp_tw (i : Voice) : (dropPendAmp s i).tw = s.tw := rfl
@[simp] theorem dropPendAmp_kind (i : Voice) : (dropPendAmp s i).kind = s.kind := rfl
@[simp] theorem dropPendAmp_amp (i : Voice) : (dropPendAmp s i).amp = s.amp := rfl
@[simp] theorem dropPendAmp_mode (i : Voice) : (dropPendAmp s i).mode = s.mode := rfl
@[simp] theorem dropPendAmp_begun (i : Voice) : (dropPendAmp s i).begun = s.begun := rfl
@[simp] theorem dropPendAmp_running (i : Voice) : (dropPendAmp s i).running = s.running := rfl
@[simp] theorem dropPendAmp_ramping (i : Voice) : (dropPendAmp s i).ramping = s.ramping := rfl
@[simp] theorem dropPendAmp_bias (i : Voice) : (dropPendAmp s i).bias = s.bias := rfl
@[simp] theorem dropPendAmp_level (i : Voice) : (dropPendAmp s i).level = s.level := rfl
@[simp] theorem dropPendAmp_pendKind (i : Voice) : (dropPendAmp s i).pendKind = s.pendKind := rfl
@[simp] theorem dropPendAmp_pendAmp (i : Voice) : (dropPendAmp s i).pendAmp = s.pendAmp.set i none := rfl
@[simp] theorem dropPendAmp_cmdPort (i : Voice) : (dropPendAmp s i).cmdPort = s.cmdPort := rfl
@[simp] theorem dropPendAmp_trace (i : Voice) : (dropPendAmp s i).trace = s.trace := rfl
@[simp] theorem dropPendAmp_agenda (i : Voice) : (dropPendAmp s i).agenda = s.agenda := rfl
@[simp] theorem dropPendAmp_turn (i : Voice) : (dropPendAmp s i).turn = s.turn := rfl

@[simp] theorem emitLevel_ph (out : Byte) : (emitLevel s out).ph = s.ph := rfl
@[simp] theorem emitLevel_tw (out : Byte) : (emitLevel s out).tw = s.tw := rfl
@[simp] theorem emitLevel_kind (out : Byte) : (emitLevel s out).kind = s.kind := rfl
@[simp] theorem emitLevel_amp (out : Byte) : (emitLevel s out).amp = s.amp := rfl
@[simp] theorem emitLevel_mode (out : Byte) : (emitLevel s out).mode = s.mode := rfl
@[simp] theorem emitLevel_begun (out : Byte) : (emitLevel s out).begun = s.begun := rfl
@[simp] theorem emitLevel_running (out : Byte) : (emitLevel s out).running = s.running := rfl
@[simp] theorem emitLevel_ramping (out : Byte) : (emitLevel s out).ramping = s.ramping := rfl
@[simp] theorem emitLevel_bias (out : Byte) : (emitLevel s out).bias = s.bias := rfl
@[simp] theorem emitLevel_level (out : Byte) : (emitLevel s out).level = out := rfl
@[simp] theorem emitLevel_pendKind (out : Byte) : (emitLevel s out).pendKind = s.pendKind := rfl
@[simp] theorem emitLevel_pendAmp (out : Byte) : (emitLevel s out).pendAmp = s.pendAmp := rfl
@[simp] theorem emitLevel_cmdPort (out : Byte) : (emitLevel s out).cmdPort = s.cmdPort := rfl
@[simp] theorem emitLevel_trace (out : Byte) : (emitLevel s out).trace = s.trace ++ [out] := rfl
@[simp] theorem emitLevel_agenda (out : Byte) : (emitLevel s out).agenda = s.agenda := rfl
@[simp] theorem emitLevel_turn (out : Byte) : (emitLevel s out).turn = s.turn := rfl

@[simp] theorem setRunning_ph (b : Bool) : (setRunning s b).ph = s.ph := rfl
@[simp] theorem setRunning_tw (b : Bool) : (setRunning s b).tw = s.tw := rfl
@[simp] theorem setRunning_kind (b : Bool) : (setRunning s b).kind = s.kind := rfl
@[simp] theorem setRunning_amp (b : Bool) : (setRunning s b).amp = s.amp := rfl
@[simp] theorem setRunning_mode (b : Bool) : (setRunning s b).mode = s.mode := rfl
@[simp] theorem setRunning_begun (b : Bool) : (setRunning s b).begun = s.begun := rfl
@[simp] theorem setRunning_running (b : Bool) : (setRunning s b).running = b := rfl
@[simp] theorem setRunning_ramping (b : Bool) : (setRunning s b).ramping = s.ramping := rfl
@[simp] theorem setRunning_bias (b : Bool) : (setRunning s b).bias = s.bias := rfl
@[simp] theorem setRunning_level (b : Bool) : (setRunning s b).level = s.level := rfl
@[simp] theorem setRunning_pendKind (b : Bool) : (setRunning s b).pendKind = s.pendKind := rfl
@[simp] theorem setRunning_pendAmp (b : Bool) : (setRunning s b).pendAmp = s.pendAmp := rfl
@[simp] theorem setRunning_cmdPort (b : Bool) : (setRunning s b).cmdPort = s.cmdPort := rfl
@[simp] theorem setRunning_trace (b : Bool) : (setRunning s b).trace = s.trace := rfl
@[simp] theorem setRunning_agenda (b : Bool) : (setRunning s b).agenda = s.agenda := rfl
@[simp] theorem setRunning_turn (b : Bool) : (setRunning s b).turn = s.turn := rfl

@[simp] theorem setRamping_ph (b : Bool) : (setRamping s b).ph = s.ph := rfl
@[simp] theorem setRamping_tw (b : Bool) : (setRamping s b).tw = s.tw := rfl
@[simp] theorem setRamping_kind (b : Bool) : (setRamping s b).kind = s.kind := rfl
@[simp] theorem setRamping_amp (b : Bool) : (setRamping s b).amp = s.amp := rfl
@[simp] theorem setRamping_mode (b : Bool) : (setRamping s b).mode = s.mode := rfl
@[simp] theorem setRamping_begun (b : Bool) : (setRamping s b).begun = s.begun := rfl
@[simp] theorem setRamping_running (b : Bool) : (setRamping s b).running = s.running := rfl
@[simp] theorem setRamping_ramping (b : Bool) : (setRamping s b).ramping = b := rfl
@[simp] theorem setRamping_bias (b : Bool) : (setRamping s b).bias = s.bias := rfl
@[simp] theorem setRamping_level (b : Bool) : (setRamping s b).level = s.level := rfl
@[simp] theorem setRamping_pendKind (b : Bool) : (setRamping s b).pendKind = s.pendKind := rfl
@[simp] theorem setRamping_pendAmp (b : Bool) : (setRamping s b).pendAmp = s.pendAmp := rfl
@[simp] theorem setRamping_cmdPort (b : Bool) : (setRamping s b).cmdPort = s.cmdPort := rfl
@[simp] theorem setRamping_trace (b : Bool) : (setRamping s b).trace = s.trace := rfl
@[simp] theorem setRamping_agenda (b : Bool) : (setRamping s b).agenda = s.agenda := rfl
@[simp] theorem setRamping_turn (b : Bool) : (setRamping s b).turn = s.turn := rfl

@[simp] theorem startUp_ph (m : Byte) : (startUp s m).ph = s.ph := rfl
@[simp] theorem startUp_tw (m : Byte) : (startUp s m).tw = s.tw := rfl
@[simp] theorem startUp_kind (m : Byte) : (startUp s m).kind = s.kind := rfl
@[simp] theorem startUp_amp (m : Byte) : (startUp s m).amp = s.amp := rfl
@[simp] theorem startUp_mode (m : Byte) : (startUp s m).mode = normMode m := rfl
@[simp] theorem startUp_begun (m : Byte) : (startUp s m).begun = true := rfl
@[simp] theorem startUp_running (m : Byte) : (startUp s m).running = true := rfl
@[simp] theorem startUp_ramping (m : Byte) : (startUp s m).ramping = s.ramping := rfl
@[simp] theorem startUp_bias (m : Byte) : (startUp s m).bias = 127 := rfl
@[simp] theorem startUp_level (m : Byte) : (startUp s m).level = s.level := rfl
@[simp] theorem startUp_pendKind (m : Byte) : (startUp s m).pendKind = s.pendKind := rfl
@[simp] theorem startUp_pendAmp (m : Byte) : (startUp s m).pendAmp = s.pendAmp := rfl
@[simp] theorem startUp_cmdPort (m : Byte) : (startUp s m).cmdPort = s.cmdPort := rfl
@[simp] theorem startUp_trace (m : Byte) : (startUp s m).trace = s.trace := rfl
@[simp] theorem startUp_agenda (m : Byte) : (startUp s m).agenda = s.agenda := rfl
@[simp] theorem startUp_turn (m : Byte) : (startUp s m).turn = s.turn := rfl

@[simp] theorem resetEvent_ph : (resetEvent s).ph = Quad.fill 0 := rfl
@[simp] theorem resetEvent_tw : (resetEvent s).tw = Quad.fill 0 := rfl
@[simp] theorem resetEvent_kind : (resetEvent s).kind = Quad.fill 0 := rfl
@[simp] theorem resetEvent_amp : (resetEvent s).amp = Quad.fill 0 := rfl
@[simp] theorem resetEvent_mode : (resetEvent s).mode = 0 := rfl
@[simp] theorem resetEvent_begun : (resetEvent s).begun = false := rfl
@[simp] theorem resetEvent_running : (resetEvent s).running = false := rfl
@[simp] theorem resetEvent_ramping : (resetEvent s).ramping = false := rfl
@[simp] theorem resetEvent_bias : (resetEvent s).bias = 127 := rfl
@[simp] theorem resetEvent_level : (resetEvent s).level = 127 := rfl
@[simp] theorem resetEvent_pendKind : (resetEvent s).pendKind = Quad.fill none := rfl
@[simp] theorem resetEvent_pendAmp : (resetEvent s).pendAmp = Quad.fill none := rfl
@[simp] theorem resetEvent_cmdPort : (resetEvent s).cmdPort = s.cmdPort := rfl
@[simp] theorem resetEvent_trace : (resetEvent s).trace = s.trace := rfl
@[simp] theorem resetEvent_agenda : (resetEvent s).agenda = s.agenda := rfl
@[simp] theorem resetEvent_turn : (resetEvent s).turn = s.turn := rfl

@[simp] theorem offerWord_ph (w : CmdWord) : (offerWord s w).ph = s.ph := rfl
@[simp] theorem offerWord_tw (w : CmdWord) : (offerWord s w).tw = s.tw := rfl
@[simp] theorem offerWord_kind (w : CmdWord) : (offerWord s w).kind = s.kind := rfl
@[simp] theorem offerWord_amp (w : CmdWord) : (offerWord s w).amp = s.amp := rfl
@[simp] theorem offerWord_mode (w : CmdWord) : (offerWord s w).mode = s.mode := rfl
@[simp] theorem offerWord_begun (w : CmdWord) : (offerWord s w).begun = s.begun := rfl
@[simp] theorem offerWord_running (w : CmdWord) : (offerWord s w).running = s.running := rfl
@[simp] theorem offerWord_ramping (w : CmdWord) : (offerWord s w).ramping = s.ramping := rfl
@[simp] theorem offerWord_bias (w : CmdWord) : (offerWord s w).bias = s.bias := rfl
@[simp] theorem offerWord_level (w : CmdWord) : (offerWord s w).level = s.level := rfl
@[simp] theorem offerWord_pendKind (w : CmdWord) : (offerWord s w).pendKind = s.pendKind := rfl
@[simp] theorem offerWord_pendAmp (w : CmdWord) : (offerWord s w).pendAmp = s.pendAmp := rfl
@[simp] theorem offerWord_cmdPort (w : CmdWord) : (offerWord s w).cmdPort = some w := rfl
@[simp] theorem offerWord_trace (w : CmdWord) : (offerWord s w).trace = s.trace := rfl
@[simp] theorem offerWord_agenda (w : CmdWord) : (offerWord s w).agenda = .accept :: s.agenda := rfl
@[simp] theorem offerWord_turn (w : CmdWord) : (offerWord s w).turn = s.turn := rfl

@[simp] theorem produceSample_ph (rom : RomTable) : (produceSample rom s).ph = advancedPhases s := rfl
@[simp] theorem produceSample_tw (rom : RomTable) : (produceSample rom s).tw = s.tw := rfl
@[simp] theorem produceSample_kind (rom : RomTable) : (produceSample rom s).kind = s.kind := rfl
@[simp] theorem produceSample_amp (rom : RomTable) : (produceSample rom s).amp = s.amp := rfl
@[simp] theorem produceSample_mode (rom : RomTable) : (produceSample rom s).mode = s.mode := rfl
@[simp] theorem produceSample_begun (rom : RomTable) : (produceSample rom s).begun = s.begun := rfl
@[simp] theorem produceSample_running (rom : RomTable) : (produceSample rom s).running = s.running := rfl
@[simp] theorem produceSample_ramping (rom : RomTable) : (produceSample rom s).ramping = s.ramping := rfl
@[simp] theorem produceSample_bias (rom : RomTable) : (produceSample rom s).bias = s.bias := rfl
@[simp] theorem produceSample_level (rom : RomTable) : (produceSample rom s).level = outputLevel s.bias (mixSum rom s) := rfl
@[simp] theorem produceSample_pendKind (rom : RomTable) : (produceSample rom s).pendKind = s.pendKind := rfl
@[simp] theorem produceSample_pendAmp (rom : RomTable) : (produceSample rom s).pendAmp = s.pendAmp := rfl
@[simp] theorem produceSample_cmdPort (rom : RomTable) : (produceSample rom s).cmdPort = s.cmdPort := rfl
@[simp] theorem produceSample_trace (rom : RomTable) : (produceSample rom s).trace = s.trace ++ [outputLevel s.bias (mixSum rom s)] := rfl
@[simp] theorem produceSample_agenda (rom : RomTable) : (produceSample rom s).agenda = s.agenda := rfl
@[simp] theorem produceSample_turn (rom : RomTable) : (produceSample rom s).turn = s.turn := rfl

end Sys2Proof.Machine
end

