-- ==== Sys2Proof/Laws/Ops.lean ====
section
/-!
SUPPORT. What each shared operation and each event can do, said once, so that a proof cites it and does not unfold it.
-/

namespace Sys2Proof.Machine

variable {s t : State}

theorem pendEmpty_iff : pendEmpty s = true ↔ s.pendKind = Quad.fill none ∧ s.pendAmp = Quad.fill none := by
  simp [pendEmpty]

theorem cmdReady_iff : cmdReady s = true ↔ s.ramping = false ∧ pendEmpty s = true := by
  simp [cmdReady]

theorem alreadySuspended_iff : alreadySuspended s = true ↔ s.running = false ∧ s.bias = 127 := by
  simp [alreadySuspended, Config.biasCenter]

/-- An accepted command has its effect; a command that is not accepted changes nothing. -/
theorem acceptCommand_cases {f : State → State} (h : acceptCommand s f = .next t) :
    (cmdReady s = true ∧ t = f s) ∨ (cmdReady s = false ∧ t = s) := by
  unfold acceptCommand at h
  split at h
  · next hr => exact .inl ⟨hr, (Host.Outcome.next.inj h).symm⟩
  · next hr => exact .inr ⟨by simpa using hr, (Host.Outcome.next.inj h).symm⟩

theorem acceptCommand_ready {f : State → State} (h : cmdReady s = true) : acceptCommand s f = .next (f s) :=
  if_pos h

theorem acceptCommand_waits {f : State → State} (h : cmdReady s = false) : acceptCommand s f = .next s :=
  if_neg (by simp [h])

/-- What a KIND commit can do. -/
theorem commitEvent_kind_cases (i : Voice) (s : State) :
    (∃ k, s.pendKind.get i = some k ∧
        commitEvent .kind i s = { s with kind := s.kind.set i k, pendKind := s.pendKind.set i none }) ∨
      (s.pendKind.get i = none ∧ commitEvent .kind i s = s) := by
  unfold commitEvent
  cases h : s.pendKind.get i with
  | some k => exact .inl ⟨k, rfl, rfl⟩
  | none => exact .inr ⟨rfl, rfl⟩

/-- What an AMP commit can do. -/
theorem commitEvent_amp_cases (i : Voice) (s : State) :
    (∃ a, s.pendAmp.get i = some a ∧
        commitEvent .amp i s = { s with amp := s.amp.set i a, pendAmp := s.pendAmp.set i none }) ∨
      (s.pendAmp.get i = none ∧ commitEvent .amp i s = s) := by
  unfold commitEvent
  cases h : s.pendAmp.get i with
  | some a => exact .inl ⟨a, rfl, rfl⟩
  | none => exact .inr ⟨rfl, rfl⟩

/-- What a tick can do. -/
theorem tickEvent_cases (rom : RomTable) (s : State) :
    (s.running = true ∧ tickEvent rom s = produceSample rom s) ∨ (s.running = false ∧ tickEvent rom s = s) := by
  unfold tickEvent
  cases h : s.running
  · exact .inr ⟨rfl, by simp⟩
  · exact .inl ⟨rfl, by simp⟩

/-- What a ramp step can do. -/
theorem rstepEvent_cases (s : State) :
    (s.ramping = true ∧ s.bias ≠ 127 ∧ rstepEvent s = { s with bias := biasTowardCenter s.bias }) ∨
      ((s.ramping = false ∨ s.bias = 127) ∧ rstepEvent s = s) := by
  unfold rstepEvent
  split
  · next h =>
    simp only [Bool.and_eq_true, bne_iff_ne, ne_eq] at h
    exact .inl ⟨h.1, h.2, rfl⟩
  · next h =>
    refine .inr ⟨?_, rfl⟩
    simp only [Bool.and_eq_true, bne_iff_ne, ne_eq, not_and, not_not] at h
    cases hr : s.ramping
    · exact .inl rfl
    · exact .inr (h hr)

/-- What the end of a ramp can do. -/
theorem rdoneEvent_cases (s : State) :
    (s.ramping = true ∧ s.bias = 127 ∧
        rdoneEvent s = { s with running := false, ramping := false, ph := Quad.fill 0 }) ∨
      ((s.ramping = false ∨ s.bias ≠ 127) ∧ rdoneEvent s = s) := by
  unfold rdoneEvent
  split
  · next h =>
    simp only [Bool.and_eq_true, beq_iff_eq] at h
    exact .inl ⟨h.1, h.2, rfl⟩
  · next h =>
    refine .inr ⟨?_, rfl⟩
    simp only [Bool.and_eq_true, beq_iff_eq, not_and] at h
    cases hr : s.ramping
    · exact .inl rfl
    · exact .inr (h hr)

/-- What the ACCEPT event can do: run the command on the port, or nothing when no word is presented. -/
theorem acceptEvent_cases (s : State) :
    (∃ w, s.cmdPort = some w ∧ acceptEvent s = exec (decode w) (takeWord s)) ∨
      (s.cmdPort = none ∧ acceptEvent s = .next s) := by
  unfold acceptEvent
  cases h : s.cmdPort with
  | some w => exact .inl ⟨w, rfl, rfl⟩
  | none => exact .inr ⟨rfl, rfl⟩

/-- The word leaves the port exactly when the port is ready. -/
theorem takeWord_cases (s : State) :
    (cmdReady s = true ∧ takeWord s = { s with cmdPort := none }) ∨ (cmdReady s = false ∧ takeWord s = s) := by
  unfold takeWord
  cases h : cmdReady s
  · exact .inr ⟨rfl, by simp⟩
  · exact .inl ⟨rfl, by simp⟩

theorem nextEvent_cons {e : Event} {es : List Event} (h : s.agenda = e :: es) : nextEvent s = e := by
  simp [nextEvent, h]

theorem advanceAgenda_cons {e : Event} {es : List Event} (h : s.agenda = e :: es) :
    advanceAgenda s = { s with agenda := es } := by
  simp [advanceAgenda, h]

/-- Using up a choice touches only the agenda and the counter. -/
theorem advanceAgenda_cases (s : State) :
    (∃ e es, s.agenda = e :: es ∧ advanceAgenda s = { s with agenda := es }) ∨
      (s.agenda = [] ∧ advanceAgenda s = { s with turn := s.turn + 1 }) := by
  unfold advanceAgenda
  cases h : s.agenda with
  | cons e es => exact .inl ⟨e, es, rfl, rfl⟩
  | nil => exact .inr ⟨rfl, rfl⟩

/-- The arithmetic shift rounds toward minus infinity: it is the floor of the quotient. -/
theorem asr_eq_floor (v : Int) (k : Nat) : asr v k = ⌊(v : ℚ) / 2 ^ k⌋ := by
  have h : ((2 : ℚ) ^ k) = ((2 ^ k : ℕ) : ℚ) := by push_cast; rfl
  rw [asr, h, Int.floor_div_natCast, Int.floor_intCast]
  push_cast
  rfl

end Sys2Proof.Machine
end

