-- ==== Sys2Proof/Laws/PerInstr.lean ====
section
/-!
SUPPORT. Facts about every command as syntax, one lemma per constructor of Instr.
-/

namespace Sys2Proof.Laws.EncodesRow

/-- The "match" value of the command's row in 30_encoding.md R58. -/
def rowMatch : Instr → CmdWord
  | .nop => 0x0000000000
  | .begin _ => 0x1000000000
  | .setwave _ _ _ _ => 0x2000000000
  | .settw _ _ => 0x3000000000
  | .setvol _ _ _ _ => 0x4000000000
  | .suspend => 0x5000000000
  | .resume => 0x6000000000

/-- The encoder writes the command's own row of the opcode map (R58), with the reserved bits 0 (R60), and the decoder
reads the opcode back. -/
def Statement (i : Instr) : Prop :=
  encode i &&& 0xF000000000 = rowMatch i ∧ rsvField (encode i) = 0 ∧ opField (encode i) = opcode i

theorem rowMask_getLsbD (i : Nat) : (0xF000000000 : CmdWord).getLsbD i = (decide (36 ≤ i) && decide (i < 40)) := by
  by_cases hi : i < 40
  · exact (by decide : ∀ i : Fin 40, (0xF000000000 : CmdWord).getLsbD i = (decide (36 ≤ i.val) && decide (i.val < 40)))
      ⟨i, hi⟩
  · simp [hi, BitVec.getLsbD_of_ge _ _ (Nat.le_of_not_lt hi)]

theorem rowMask_packWord (op : BitVec 4) (v rsv : BitVec 2) (imm : Word) :
    packWord op v rsv imm &&& 0xF000000000 = packWord op 0 0 0 := by
  apply BitVec.eq_of_getLsbD_eq
  intro i hi
  simp only [packWord, BitVec.getLsbD_and, rowMask_getLsbD, BitVec.getLsbD_append]
  by_cases h : 36 ≤ i
  · simp [h, hi, show ¬ i < 32 by omega, show ¬ i - 32 < 2 by omega, show ¬ i - 32 - 2 < 2 by omega]
  · simp [h]
    intros
    omega

theorem rsvField_packWord (op : BitVec 4) (v rsv : BitVec 2) (imm : Word) : rsvField (packWord op v rsv imm) = rsv := by
  ext i hi
  simp only [rsvField, packWord, BitVec.getElem_extractLsb', BitVec.getLsbD_append]
  simp [hi]

theorem nop : Statement .nop := by
  refine ⟨?_, ?_, ?_⟩ <;> rfl

theorem begin (m : Byte) : Statement (.begin m) :=
  ⟨(rowMask_packWord _ _ _ _).trans (by decide : packWord 1 0 0 0 = 0x1000000000), rsvField_packWord _ _ _ _, opField_packWord _ _ _ _⟩

theorem setwave (b0 b1 b2 b3 : Byte) : Statement (.setwave b0 b1 b2 b3) :=
  ⟨(rowMask_packWord _ _ _ _).trans (by decide : packWord 2 0 0 0 = 0x2000000000), rsvField_packWord _ _ _ _, opField_packWord _ _ _ _⟩

theorem settw (v : Voice) (t : Word) : Statement (.settw v t) :=
  ⟨(rowMask_packWord _ _ _ _).trans (by decide : packWord 3 0 0 0 = 0x3000000000), rsvField_packWord _ _ _ _, opField_packWord _ _ _ _⟩

theorem setvol (b0 b1 b2 b3 : Byte) : Statement (.setvol b0 b1 b2 b3) :=
  ⟨(rowMask_packWord _ _ _ _).trans (by decide : packWord 4 0 0 0 = 0x4000000000), rsvField_packWord _ _ _ _, opField_packWord _ _ _ _⟩

theorem suspend : Statement .suspend := by
  refine ⟨?_, ?_, ?_⟩ <;> rfl

theorem resume : Statement .resume := by
  refine ⟨?_, ?_, ?_⟩ <;> rfl

end Sys2Proof.Laws.EncodesRow
end

