-- ==== Sys2Proof/Laws/Runs.lean ====
section
/-!
SUPPORT. Finite runs of events: one step at a time, and the induction over a run packaged once.
-/

namespace Sys2Proof.Machine

variable {rom : RomTable} {p : Event → State → Bool} {e : Event} {es : List Event} {s t u : State}

theorem runEventsWith_cons (h : runEventWith rom e s = .next t) :
    runEventsWith rom (e :: es) s = runEventsWith rom es t := by
  simp only [runEventsWith, h]

/-- What a run that meets a condition all along begins with. -/
theorem alongRun_cons (h : alongRun p rom (e :: es) s = true) :
    p e s = true ∧ ∃ t, runEventWith rom e s = .next t ∧ alongRun p rom es t = true := by
  simp only [alongRun, Bool.and_eq_true] at h
  refine ⟨h.1, ?_⟩
  cases hr : runEventWith rom e s with
  | next t => exact ⟨t, rfl, by simpa [hr] using h.2⟩
  | fault f => simp [hr] at h
  | refused r => simp [hr] at h

/-- A relation that holds of the empty run, and that an event meeting the condition extends to the front, holds of every
run that meets the condition all along. -/
theorem alongRun_induct {r : State → List Event → State → Prop} (h0 : ∀ s, r s [] s)
    (hs : ∀ e es s t u, p e s = true → runEventWith rom e s = .next t → r t es u → r s (e :: es) u) :
    ∀ es s, alongRun p rom es s = true → ∃ u, runEventsWith rom es s = .next u ∧ r s es u := by
  intro es
  induction es with
  | nil => exact fun s _ => ⟨s, rfl, h0 s⟩
  | cons e es ih =>
    intro s h
    obtain ⟨hp, t, ht, h'⟩ := alongRun_cons h
    obtain ⟨u, hu, hr⟩ := ih t h'
    exact ⟨u, (runEventsWith_cons ht).trans hu, hs e es s t u hp ht hr⟩

end Sys2Proof.Machine
end

