-- ==== Sys2Proof/Tests/Slice0.lean ====
section
/-!
SUPPORT. Tests of the model. The expected values come from the spec: the worked encodings of 30_encoding.md R62, the
tables of 41_mixer.md R84 and R86, the vectors T1 to T99 of 95_test_vectors.md and the examples of the rules. After the
tests stand the witnesses: concrete states and operands that meet the hypotheses of the statements in
Certificates/Slice0/Obligations.lean.
-/

namespace Sys2Proof.Tests

open Sys2Proof.Machine

/-- The next state of an outcome; the reset state where there is none. -/
def after : Result → State
  | .next t => t
  | .fault _ => State.reset
  | .refused _ => State.reset

/-- A block after a BEGIN of SingleEndedB. -/
def runningState : State := { State.reset with mode := 1, begun := true, running := true }

/-- A block in a ramp whose bias is `b`. -/
def rampState (b : Byte) : State := { runningState with ramping := true, bias := b, ph := ⟨1, 2, 3, 4⟩ }

/-- A block with the four AMP writes of the example of R73 pending. -/
def pendingState : State :=
  { State.reset with amp := ⟨10, 20, 30, 40⟩, pendAmp := ⟨some 1, some 2, some 3, some 4⟩ }

/-- The state of the example of R80. -/
def tickState : State :=
  { runningState with
    ph := ⟨0x0F000000, 0x3F800000, 0x9FFFFFFF, 0xC0000000⟩, tw := ⟨0x01000000, 0x00800000, 0x00000001, 0x80000000⟩
    kind := ⟨0, 1, 2, 0⟩, amp := ⟨255, 128, 64, 200⟩ }

/-! ### WellFormed: each check refuses a line that breaks it -/

theorem test_voice_4_refused : (AsmLine.settw 4 0).wellFormed = false := by decide
theorem test_voice_minus_1_refused : (AsmLine.settw (-1) 0).wellFormed = false := by decide
theorem test_voice_3_accepted : (AsmLine.settw 3 (-5)).wellFormed = true := by decide
theorem test_setfreq_voice_4_refused : (AsmLine.setfreq 4 ⟨440, 1⟩).wellFormed = false := by decide
theorem test_negative_frequency_refused : (AsmLine.setfreq 0 ⟨-1, 1⟩).wellFormed = false := by decide
theorem test_zero_denominator_refused : (AsmLine.setfreq 0 ⟨1, 0⟩).wellFormed = false := by decide
theorem test_zero_rate_refused : Freq.isRate ⟨0, 1⟩ = false ∧ Freq.isRate Config.sampleRateRef = true := by decide
theorem test_amplitude_300_accepted : (AsmLine.setvol 300 (-1) 0 256).wellFormed = true := by decide

/-! ### Decoding and encoding: the words of R62 and T1 to T9 -/

theorem test_decode_nop : decode 0x0000000000 = .nop := by decide
theorem test_decode_begin : decode 0x1000000002 = .begin 2 := by decide
theorem test_decode_begin_ignored_bits : decode 0x1FABCDEF02 = .begin 2 := by decide
theorem test_decode_setwave : decode 0x2000020100 = .setwave 0 1 2 0 := by decide
theorem test_decode_settw : decode 0x3801234567 = .settw 2 0x01234567 := by decide
theorem test_decode_settw_rsv_ignored : decode 0x3B00000007 = .settw 2 7 := by decide
theorem test_decode_setvol : decode 0x4C01020304 = .setvol 4 3 2 1 := by decide
theorem test_decode_suspend : decode 0x5000000000 = .suspend ∧ decode 0x5FFFFFFFFF = .suspend := by decide
theorem test_decode_resume : decode 0x6000000000 = .resume := by decide
theorem test_decode_reserved :
    decode 0x7000000000 = .nop ∧ decode 0xF012345678 = .nop ∧ decode 0xFFFFFFFFFF = .nop := by decide

theorem test_encode_begin : encode (.begin 2) = 0x1000000002 := by decide
theorem test_encode_setwave : encode (.setwave 0 1 2 0) = 0x2000020100 := by decide
theorem test_encode_settw : encode (.settw 3 47244640) = 0x3C02D0E560 := by decide
theorem test_encode_setvol : encode (.setvol 255 128 0 1) = 0x40010080FF := by decide

theorem test_mnemonics : [Instr.nop, .begin 0, .setwave 0 0 0 0, .settw 0 0, .setvol 0 0 0 0, .suspend, .resume].map mnemonic
    = ["NOP", "BEGIN", "SETWAVE", "SETTW", "SETVOL", "SUSPEND", "RESUME"] := by decide

theorem test_table_rows : [0x0000000000, 0x1000000000, 0x2000000000, 0x3000000000, 0x4000000000, 0x5000000000,
      0x6000000000].map (decodeTableWord 40)
    = [some .nop, some (.begin 0), some (.setwave 0 0 0 0), some (.settw 0 0), some (.setvol 0 0 0 0), some .suspend,
      some .resume] := by decide
theorem test_41_bits_refused : decodeTableWord 41 (2 ^ 40) = none := by decide

/-! ### The first step after reset runs the word placed by withFetchWord -/

theorem test_first_step_writes :
    (after (step (State.reset.withFetchWord 40 0x10000000FF))).running = true ∧
      (after (step (State.reset.withFetchWord 40 0x3B00000007))).tw = ⟨0, 0, 7, 0⟩ ∧
      (after (step (State.reset.withFetchWord 40 0x2007020100))).pendKind = ⟨some 0, some 1, some 2, some 0⟩ ∧
      (after (step (State.reset.withFetchWord 40 0x40010080FF))).pendAmp = ⟨some 255, some 128, some 0, some 1⟩ := by
  decide
theorem test_first_step_absorbed :
    step (State.reset.withFetchWord 40 0) = .next State.reset ∧
      step (State.reset.withFetchWord 40 0x5000000000) = .next State.reset ∧
      step (State.reset.withFetchWord 40 0x6000000000) = .next State.reset ∧
      step (State.reset.withFetchWord 40 0xF012345678) = .next State.reset := ⟨rfl, rfl, rfl, rfl⟩

/-! ### The state machine: T90 to T99 and the examples of R90, R100, R103 -/

theorem test_begin_seb_paths :
    (exec (.begin 1) State.reset = .next runningState) ∧ pathAEn runningState = false ∧ pathBEn runningState = true := by
  refine ⟨rfl, ?_⟩; decide
theorem test_begin_absorbed : exec (.begin 2) runningState = .next runningState ∧
    (after (exec (.begin 255) State.reset)).mode = 0 := by
  refine ⟨rfl, ?_⟩; decide
theorem test_suspend_running :
    (after (exec .suspend runningState)).ramping = true ∧ cmdReady (after (exec .suspend runningState)) = false := by
  decide
theorem test_suspend_off_centre :
    (after (exec .suspend { State.reset with bias := 120 })).ramping = true := by decide
theorem test_resume_before_begin : exec .resume State.reset = .next State.reset := by rfl
theorem test_resume_after_suspend :
    (after (exec .resume { runningState with running := false })).running = true := by decide
theorem test_ramping_accepts_nothing : exec .resume (rampState 127) = .next (rampState 127) := by rfl
theorem test_pending_accepts_nothing : exec (.settw 0 1) pendingState = .next pendingState := by rfl

theorem test_rstep_128 : (rstepEvent (rampState 128)).bias = 127 := by decide
theorem test_rstep_0_255 : (rstepEvent (rampState 0)).bias = 1 ∧ (rstepEvent (rampState 255)).bias = 254 := by decide
theorem test_rstep_at_centre : rstepEvent (rampState 127) = rampState 127 := by decide
theorem test_rdone : rdoneEvent (rampState 127) = { runningState with running := false } := by decide
theorem test_rdone_off_centre : rdoneEvent (rampState 126) = rampState 126 := by decide
theorem test_reset_any : resetEvent tickState = State.reset ∧ resetEvent pendingState = State.reset := by decide

/-- The example of R73. -/
theorem test_commit_amp_2 :
    (commitEvent .amp 2 pendingState).amp = ⟨10, 20, 3, 40⟩ ∧
      (commitEvent .amp 2 pendingState).pendAmp = ⟨some 1, some 2, none, some 4⟩ := by decide

/-- T10 to T13. -/
theorem test_normalise : [0, 1, 2, 3, 4, 7, 127, 128, 254, 255].map normKind = [0, 1, 2, 0, 0, 0, 0, 0, 0, 0] ∧
    [0, 1, 2, 3, 4, 7, 127, 128, 254, 255].map normMode = [0, 1, 2, 0, 0, 0, 0, 0, 0, 0] := by decide

/-! ### The sample path -/

/-- T50. -/
theorem test_rom_sine :
    [0, 1, 64, 128, 192, 255].map (fun n => (romRead romRef 0 n).toInt) = [0, 3, 127, 0, -127, -3] := by decide
/-- T51. -/
theorem test_rom_square :
    [0, 127, 128, 255].map (fun n => (romRead romRef 1 n).toInt) = [127, 127, -127, -127] := by decide
/-- T52. -/
theorem test_rom_ramp :
    [0, 1, 127, 128, 129, 255].map (fun n => (romRead romRef 2 n).toInt) = [-128, -127, -1, 0, 1, 127] := by decide
/-- T53. -/
theorem test_rom_fallback : [0, 17, 200].map (romRead romRef 3) = [0, 17, 200].map (romRead romRef 0) := by decide
/-- R35: the table has 256 entries. -/
theorem test_sine_table_length :
    sineRows0.length + sineRows64.length + sineRows128.length + sineRows192.length = 256 := by decide

/-- T40 to T43, T45. -/
theorem test_phase : advancePhase 0 0 = 0 ∧ advancePhase 0xFFFFFFFF 1 = 0 ∧ advancePhase 0xFFFFFF00 0x200 = 0x100 ∧
    advancePhase 0x00FFFFFF 1 = 0x01000000 ∧ advancePhase 0x80000000 0x80000000 = 0 := by decide

/-- The sixteen rows of R84. -/
theorem test_scale : ([(127, 255), (-128, 255), (-127, 255), (1, 255), (-1, 255), (-1, 1), (1, 1), (-128, 1), (127, 128),
      (-127, 128), (100, 64), (-100, 64), (3, 100), (-3, 100), (5, 0), (0, 9)] : List (Int × Byte)).map
      (fun p => scaleSample (BitVec.ofInt 8 p.1) p.2)
    = [126, -128, -127, 0, -1, -1, 0, -1, 63, -64, 25, -25, 1, -2, 0, 0] := by decide

/-- The nine rows of R86. -/
theorem test_level : [0, 128, 129, -127, -128, 504, -508, -512, 218].map (outputLevel 127)
    = [127, 255, 0, 0, 255, 119, 131, 127, 89] := by decide

/-- The example of R80, its two TICKs. -/
theorem test_tick : (tickEvent romRef tickState).level = 89 := by decide
theorem test_tick_phases :
    (tickEvent romRef tickState).ph = ⟨0x10000000, 0x40000000, 0xA0000000, 0x40000000⟩ := by decide
theorem test_second_tick : (tickEvent romRef (tickEvent romRef tickState)).trace = [89, 148] := by decide
theorem test_datapath : datapathLevel romRef tickState = 89 := by decide
/-- T64: a wrap caused by a bias off the centre. -/
theorem test_tick_off_centre : (tickEvent romRef
    { rampState 130 with ph := ⟨0x40000000, 0, 0, 0⟩, amp := ⟨255, 0, 0, 0⟩ }).level = 0 := by decide
/-- R80: a tick of a stopped block is dropped. -/
theorem test_tick_dropped : tickEvent romRef pendingState = pendingState := by decide

/-- R124: the tick that coincides with a SETTW uses the old tuning word; the command is accepted after it. -/
theorem test_cycle : clockCycle romRef ⟨false, true, false, [], some 0x3000000005⟩ tickState
    = .next { tickEvent romRef tickState with tw := ⟨5, 0x00800000, 0x00000001, 0x80000000⟩ } := by rfl
/-- R124: with `rst` nothing else happens in the cycle. -/
theorem test_cycle_reset :
    (after (clockCycle romRef ⟨true, true, true, [(.amp, 0)], none⟩ pendingState)) = State.reset := by decide

/-- The outputs after program P6, and with the R73 example's writes pending. -/
theorem test_observation :
    observe { runningState with mode := 0 } = ⟨[], true, true, true, false, 0⟩ ∧
      observe pendingState = ⟨[], false, false, false, false, 0⟩ := by decide

/-! ### The assembler: R62, R64 and T14 to T19 -/

/-- The word of a line of text. -/
def assembled (text : String) : Except AsmError (List CmdWord) := assembleText Config.sampleRateRef [text.toList]

/-- Whether a line of text assembles to a word. -/
def assemblesTo (text : String) (w : CmdWord) : Bool :=
  match assembled text with
  | .ok ws => ws == [w]
  | .error _ => false

/-- Whether a line of text is refused for a reason. -/
def refusedWith (text : String) (e : AsmError) : Bool :=
  match assembled text with
  | .ok _ => false
  | .error e' => e' == e

theorem test_asm_begin : assemblesTo "BEGIN" 0x1000000000 = true ∧ assemblesTo "BEGIN 7" 0x1000000000 = true := by decide
theorem test_asm_begin_diff : assemblesTo "BEGIN DIFF ; both paths" 0x1000000002 = true := by decide
theorem test_asm_setwave : assemblesTo "SETWAVE RAMP, 257, -1, 3" 0x2000000002 = true := by decide
theorem test_asm_setwave_names : assemblesTo "SETWAVE SINE, SQUARE, RAMP, SINE" 0x2000020100 = true := by decide
theorem test_asm_setvol : assemblesTo "SETVOL 256, 300, -1, 64" 0x4040FF2C00 = true := by decide
theorem test_asm_settw : assemblesTo "SETTW 1, 0x100000001" 0x3400000001 = true := by decide
theorem test_asm_settw_voice : refusedWith "SETTW 4, 0" .voiceOutOfRange = true := by decide
theorem test_asm_setfreq : assemblesTo "SETFREQ 0, 156.25" 0x3001000000 = true := by decide
theorem test_asm_setfreq_negative : refusedWith "SETFREQ 0, -1" .negativeFrequency = true := by decide
theorem test_asm_bad : refusedWith "SETVOL 1, 2" .badSyntax = true := by decide
theorem test_asm_comment : assembled "  ; nothing here" = .ok [] := by rfl
theorem test_asm_idle : assemblesTo "NOP" 0 = true ∧ assemblesTo "SUSPEND" 0x5000000000 = true ∧
    assemblesTo "RESUME" 0x6000000000 = true := by decide

/-- The fourteen rows of R64 (T20 to T33), and T34. -/
theorem test_tuning_words : ([⟨0, 1⟩, ⟨1, 1⟩, ⟨100, 1⟩, ⟨15625, 100⟩, ⟨440, 1⟩, ⟨1000, 1⟩, ⟨2600, 1⟩, ⟨10000, 1⟩, ⟨20000, 1⟩,
      ⟨39999, 1⟩, ⟨40000, 1⟩, ⟨40440, 1⟩, ⟨40000, 2 ^ 33⟩, ⟨120000, 2 ^ 33⟩, ⟨2616255653, 10000000⟩] : List Freq).map
      (tuningWord Config.sampleRateRef)
    = [0, 0x0001A36E, 0x00A3D70A, 0x01000000, 0x02D0E560, 0x06666666, 0x10A3D70A, 0x40000000, 0x80000000, 0xFFFE5C92, 0,
      0x02D0E560, 1, 2, 0x01ACA5B7] := by decide

/-- The calls of R65: `begin()`, and `setFrequency(3, 440)` of the example of R71. -/
theorem test_calls : assembleWord Config.sampleRateRef (lineOfCall .beginDefault) = .ok 0x1000000000 ∧
    assembleWord Config.sampleRateRef (lineOfCall (.setFrequency 3 ⟨440, 1⟩)) = .ok 0x3C02D0E560 := ⟨rfl, rfl⟩

theorem test_print : printCommand (.setwave 0 1 2 7) = "SETWAVE SINE, SQUARE, RAMP, SINE" := by decide

/-! ### Witnesses: states and operands that meet the hypotheses of the statements -/

theorem witness_CanonicalWordIsReencoded :
    CmdWord.canonical 0 = true ∧ CmdWord.canonical 0x10000000FF = true ∧ CmdWord.canonical 0x3FFFFFFFFF = false ∧
      CmdWord.canonical 0x3CFFFFFFFF = true ∧ CmdWord.canonical 0x40FFFFFFFF = true := by decide

theorem witness_IgnoredBitsDoNotMatter_words :
    (0x1000000002 : CmdWord) &&& usedMask (opField 0x1000000002)
        = 0x1FABCDEF02 &&& usedMask (opField 0x1000000002) := by decide

theorem witness_IgnoredBitsDoNotMatter_lines :
    assembleWord Config.sampleRateRef (.settw 3 (-1)) = .ok 0x3CFFFFFFFF := by rfl

/-- A state whose next event is ACCEPT of a presented BEGIN. -/
def offeredState : State := { State.reset with agenda := [.accept, .tick], cmdPort := some 0x1000000000 }

theorem witness_StepRunsTheDecodedCommand :
    offeredState.agenda = .accept :: [.tick] ∧ offeredState.cmdPort = some 0x1000000000 ∧
      cmdReady offeredState = true ∧ cmdReady { offeredState with ramping := true } = false := by decide

theorem witness_AgendaIsPerformedInOrder : offeredState.agenda = [.accept] ++ [.tick] := by decide

theorem witness_DisabledEventsChangeNothing :
    enabled .tick pendingState = false ∧ enabled .rstep (rampState 127) = false ∧
      enabled .rdone (rampState 126) = false ∧ enabled (.commit .kind 0) pendingState = false ∧
      enabled (.commit .amp 3) runningState = false ∧ enabled .accept pendingState = false := by decide

theorem witness_NopChangesNothing :
    (opField 0x0FFFFFFFFF).toNat = 0 ∧ cmdReady { pendingState with cmdPort := some 0 } = false := by decide

theorem witness_ReservedOpcodesChangeNothing :
    7 ≤ (opField 0x7000000000).toNat ∧ 7 ≤ (opField 0xFFFFFFFFFF).toNat ∧
      cmdReady { tickState with cmdPort := some 0x7000000000 } = true := by decide

/-- The completion statements of SETTW, SETWAVE and SETVOL ask only for a ready port. -/
theorem witness_SettwWritesOneTuningWord : cmdReady tickState = true ∧ cmdReady State.reset = true := by decide
theorem witness_SetwaveQueuesFourKinds : cmdReady tickState = true ∧ cmdReady State.reset = true := by decide
theorem witness_SetvolQueuesFourAmplitudes : cmdReady tickState = true ∧ cmdReady State.reset = true := by decide

theorem witness_FirstBeginStartsProduction : cmdReady State.reset = true ∧ State.reset.begun = false := by decide

theorem witness_SecondBeginChangesNothing :
    runningState.begun = true ∧ runEvent .withdraw runningState = .next runningState ∧ Event.withdraw ≠ .reset := by
  refine ⟨rfl, rfl, ?_⟩; decide

theorem witness_SuspendStartsTheRamp :
    (cmdReady runningState = true ∧ ¬ (runningState.running = false ∧ runningState.bias = 127)) ∧
      cmdReady { State.reset with bias := 126 } = true ∧
      ¬ (State.reset.running = false ∧ ({ State.reset with bias := 126 } : State).bias = 127) := by decide

theorem witness_SuspendWhenSuspendedIsNoOp :
    cmdReady State.reset = true ∧ State.reset.running = false ∧ State.reset.bias = 127 ∧
      (opField 0x5000000000).toNat = 5 ∧ State.reset.cmdPort = none := by decide

theorem witness_ResumeEnablesProduction :
    (cmdReady { runningState with running := false } = true ∧ runningState.begun = true) ∧
      State.reset.begun = false := by decide

theorem witness_CommandsWaitWhileThePortIsBusy :
    cmdReady pendingState = false ∧ cmdReady (rampState 127) = false ∧
      (cmdReady offeredState = true ∧ offeredState.cmdPort = some 0x1000000000 ∧
        ∃ t, runEvent .accept offeredState = .next t) := by
  refine ⟨by decide, by decide, by decide, by decide, _, rfl⟩

/-- Commits in two orders, with a TICK between and without. -/
theorem witness_ConfigurationIsIdempotent :
    2 ≤ (opField 0x40010080FF).toNat ∧ (opField 0x40010080FF).toNat ≤ 4 ∧ cmdReady tickState = true ∧
      (Event.accept ∉ [.commit .amp 2, .tick, .commit .amp 0, .commit .amp 3, .commit .amp 1] ∧
        Event.reset ∉ [.commit .amp 2, .tick, .commit .amp 0, .commit .amp 3, .commit .amp 1]) ∧
      (Event.accept ∉ allCommits ∧ Event.reset ∉ allCommits) ∧
      (∃ t, runEventsWith romRef (offerEvents 0x40010080FF ++
          [.commit .amp 2, .tick, .commit .amp 0, .commit .amp 3, .commit .amp 1]) tickState = .next t ∧
        cmdReady t = true ∧
        ∃ u, runEventsWith romRef (offerEvents 0x40010080FF ++ allCommits) t = .next u ∧ cmdReady u = true) ∧
      ∀ e ∈ allCommits ++ allCommits.reverse, ∃ f i, e = .commit f i := by
  refine ⟨by decide, by decide, by decide, by decide, by decide, ⟨_, rfl, by decide, _, rfl, by decide⟩, ?_⟩
  simp [allCommits]

theorem witness_CommitPerformsOneWrite :
    ({ State.reset with pendKind := ⟨none, none, none, some 2⟩ } : State).pendKind.get 3 = some 2 ∧
      pendingState.pendAmp.get 0 = some 1 := by decide

theorem witness_TickProducesOneSample : tickState.running = true ∧ pendingState.running = false := by decide

theorem witness_RstepMovesTheBiasOneUnit :
    ((rampState 255).ramping = true ∧ (rampState 255).bias ≠ 127) ∧
      ((rampState 128).ramping = true ∧ (rampState 128).bias ≠ 127) ∧
      ((rampState 126).ramping = true ∧ (rampState 126).bias ≠ 127) ∧
      ((rampState 0).ramping = true ∧ (rampState 0).bias ≠ 127) := by decide

theorem witness_RdoneEndsTheRamp : (rampState 127).ramping = true ∧ (rampState 127).bias = 127 := by decide

/-- Events that change each kind of state. -/
theorem witness_WriteMatrix :
    runEvent .rdone (rampState 127) = .next (rdoneEvent (rampState 127)) ∧
      (∃ t, runEvent .accept offeredState = .next t ∧ t.cmdPort ≠ offeredState.cmdPort) ∧
      (rdoneEvent (rampState 127)).ph ≠ (rampState 127).ph ∧
      (rdoneEvent (rampState 127)).running ≠ (rampState 127).running ∧
      (rdoneEvent (rampState 127)).ramping ≠ (rampState 127).ramping ∧
      (rstepEvent (rampState 128)).bias ≠ (rampState 128).bias ∧
      (commitEvent .amp 2 pendingState).amp ≠ pendingState.amp ∧
      (commitEvent .amp 2 pendingState).pendAmp ≠ pendingState.pendAmp ∧
      (commitEvent .kind 1 { State.reset with pendKind := ⟨none, some 2, none, none⟩ }).kind ≠ State.reset.kind ∧
      (commitEvent .kind 1 { State.reset with pendKind := ⟨none, some 2, none, none⟩ }).pendKind
        ≠ ⟨none, some 2, none, none⟩ ∧
      (tickEvent romRef tickState).level ≠ tickState.level ∧ (tickEvent romRef tickState).trace ≠ tickState.trace ∧
      (resetEvent tickState).tw ≠ tickState.tw ∧ (resetEvent tickState).mode ≠ tickState.mode ∧
      (resetEvent tickState).begun ≠ tickState.begun := by
  refine ⟨rfl, ⟨_, rfl, by decide⟩, ?_⟩; decide

/-- Each clause of the scaler's corner cases. -/
theorem witness_ScalerRoundsTowardMinusInfinity :
    ((-1 : Byte).toInt < 0 ∧ (1 : Byte) ≠ 0) ∧ (0 < (1 : Byte).toInt ∧ 0 < (127 : Byte).toInt) ∧
      ((-128 : Byte).toInt ≤ 0 ∧ (0 : Byte).toInt ≤ 0) := by decide

/-- The two ends of the headroom, inside and outside. -/
theorem witness_LevelWrapsOutsideTheHeadroom :
    State.reset.bias = 127 ∧ inHeadroom (-127) ∧ inHeadroom 128 ∧ ¬ inHeadroom (-128) ∧ ¬ inHeadroom 129 := by decide

/-- Four voices at amplitude 62, and one at 254, meet the condition of R146. -/
theorem witness_SmallAmplitudesNeverWrap :
    (({ runningState with amp := Quad.fill 62 } : State).bias = 127 ∧
        ∑ i : Voice, ((({ runningState with amp := Quad.fill 62 } : State).amp.get i).toNat + 1) / 2 ≤ 127) ∧
      ∑ i : Voice, ((({ runningState with amp := ⟨0, 0, 254, 0⟩ } : State).amp.get i).toNat + 1) / 2 ≤ 127 := by decide

/-- Events that keep the tone of voice 0: TICKs, an accepted SETTW of voice 1, one that gives voice 0 the tuning word it
has, and an accepted SUSPEND. -/
def toneEvents : List Event :=
  [.tick] ++ offerEvents 0x3400000005 ++ offerEvents 0x3001000000 ++ [.tick] ++ offerEvents 0x5000000000 ++ [.tick]

theorem witness_PhaseAfterManyTicks :
    tickState.running = true ∧ alongRun (keepsTone 0) romRef toneEvents tickState = true := by decide

/-- Voice 3 of that state has the tuning word 2^31. -/
theorem witness_PhaseRepeatsWithThePeriod :
    tickState.running = true ∧ alongRun (keepsTone 3) romRef (toneEvents ++ [.tick]) tickState = true := by decide

theorem witness_SilentVoicesProduceTheBias :
    ({ tickState with amp := Quad.fill 0 } : State).running = true ∧
      ∀ i : Voice, ({ tickState with amp := Quad.fill 0 } : State).amp.get i = 0 := by decide

/-- Voice 3 alone at full scale, with ROM_REF: a positive entry, one not positive, and the entry -128. -/
def soloState (p : Word) : State := { runningState with amp := ⟨0, 0, 0, 255⟩, kind := Quad.fill 2, ph := Quad.fill p }

theorem witness_OneVoiceAtFullScale :
    ((soloState 0).running = true ∧ (soloState 0).bias = 127 ∧ (soloState 0).amp.get 3 = 255 ∧
        ∀ i : Voice, i ≠ 3 → (soloState 0).amp.get i = 0) ∧
      (romRead romRef 2 0).toInt = -128 ∧ (romRead romRef 2 1).toInt = -127 ∧ (romRead romRef 2 128).toInt = 0 ∧
      0 < (romRead romRef 2 129).toInt := by decide

theorem witness_EachVoiceIsOldOrNew :
    cmdReady tickState = true ∧ Event.accept ∉ [.tick, .commit .amp 2, .commit .kind 2] ∧
      Event.reset ∉ [.tick, .commit .amp 2, .commit .kind 2] ∧
      (∃ u, exec (.setvol 1 2 3 4) tickState = .next u) ∧ ∃ u, exec (.setwave 1 2 3 4) tickState = .next u := by
  refine ⟨by decide, by decide, by decide, ⟨_, rfl⟩, _, rfl⟩

theorem witness_AnyCommitOrderSetsAllVoices :
    cmdReady tickState = true ∧ Event.accept ∉ allCommits ++ [.tick] ∧ Event.reset ∉ allCommits ++ [.tick] ∧
      (∀ i : Voice, Event.commit .amp i ∈ allCommits ++ [.tick]) ∧
      (∀ i : Voice, Event.commit .kind i ∈ allCommits ++ [.tick]) ∧
      (∃ u, exec (.setvol 1 2 3 4) tickState = .next u) ∧ ∃ u, exec (.setwave 1 2 3 4) tickState = .next u := by
  refine ⟨by decide, by decide, by decide, by decide, by decide, ⟨_, rfl⟩, _, rfl⟩

theorem witness_FourCommitsCompleteACommand :
    ∃ u t, cmdReady tickState = true ∧ Event.accept ∉ allCommits ∧ Event.reset ∉ allCommits ∧
      exec (.setvol 1 2 3 4) tickState = .next u ∧ runEventsWith romRef allCommits u = .next t ∧ cmdReady t = true :=
  ⟨_, _, by decide, by decide, by decide, rfl, rfl, by decide⟩

/-- A run of a whole ramp: from bias 128 one RSTEP, then RDONE, then HOST does nothing for ever. -/
def rampRun : Nat → State
  | 0 => rampState 128
  | 1 => rampState 127
  | _ => rdoneEvent (rampState 127)

/-- The events of that run. -/
def rampRunEvents : Nat → Event
  | 0 => .rstep
  | 1 => .rdone
  | _ => .withdraw

theorem rampRun_isRun : IsRun rampRun rampRunEvents
  | 0 => rfl
  | 1 => rfl
  | _ + 2 => rfl

/-- An event that is not enabled at the end of the run is treated fairly by it. -/
theorem rampRun_fair (e : Event) (h : enabled e (rdoneEvent (rampState 127)) = false) :
    WeaklyFair e rampRun rampRunEvents := fun n hn => by
  have h' : enabled e (rdoneEvent (rampState 127)) = true := hn (n + 2) (by omega)
  rw [h] at h'
  cases h'

theorem witness_EveryCallReturns : IsRun rampRun rampRunEvents ∧ FairAgents rampRun rampRunEvents := by
  refine ⟨rampRun_isRun, fun f i => rampRun_fair _ ?_, rampRun_fair _ ?_, rampRun_fair _ ?_⟩
  · revert i; cases f <;> decide
  · decide
  · decide

theorem witness_SuspendAlwaysTerminates :
    IsRun rampRun rampRunEvents ∧ WeaklyFair .rstep rampRun rampRunEvents ∧ WeaklyFair .rdone rampRun rampRunEvents ∧
      (∀ n, rampRunEvents n ≠ .reset) ∧ (rampRun 0).ramping = true ∧ pendEmpty (rampRun 0) = true := by
  refine ⟨rampRun_isRun, rampRun_fair _ (by decide), rampRun_fair _ (by decide), fun n => ?_, by decide, by decide⟩
  rcases n with _ | _ | n <;> exact fun h => by cases h

theorem witness_CoincidingTickUsesTheOldValues :
    (⟨false, true, false, [], some 0x3000000005⟩ : Strobes).rst = false ∧
      (⟨false, true, false, [], some 0x3000000005⟩ : Strobes).sampleTick = true ∧ tickState.running = true ∧
      cmdReady tickState = true := by decide

/-- A cycle with a tick, a ramp step and two commits, whose commits are distinct entries of `pend`; and one without
commits, in which a command is accepted. -/
theorem witness_ClockCycleIsAnInterleaving :
    ([(.amp, 2), (.amp, 0)] : List (PendField × Voice)).Nodup ∧
      (∀ fi ∈ ([(.amp, 2), (.amp, 0)] : List (PendField × Voice)),
        enabled (.commit fi.1 fi.2) { rampState 128 with pendAmp := ⟨some 1, none, some 2, none⟩ } = true) ∧
      cycleEvents ⟨false, true, true, [(.amp, 2), (.amp, 0)], none⟩
          { rampState 128 with pendAmp := ⟨some 1, none, some 2, none⟩ }
        = [.withdraw, .tick, .rstep, .commit .amp 2, .commit .amp 0] ∧
      cycleEvents ⟨false, true, true, [], some 0⟩ tickState = [.present 0, .tick, .accept] ∧
      cycleEvents ⟨true, true, true, [], some 0⟩ tickState = [.present 0, .reset] := by decide

theorem witness_HostAndRampNeverRace :
    enabled .accept offeredState = true ∧ enabled .rdone (rampState 127) = true ∧
      runEvent .rdone (rampState 127) = .next (rdoneEvent (rampState 127)) := by
  refine ⟨by decide, by decide, rfl⟩

/-- One event for each row of R105 that changes the controller: BEGIN, RESUME, SUSPEND from Running, SUSPEND from Suspended
with the bias off the centre, RDONE, RESET. -/
theorem witness_ControllerTransitions :
    (∃ t, runEvent .accept offeredState = .next t ∧ controller t ≠ controller offeredState) ∧
      (∃ t, runEvent .accept { runningState with running := false, cmdPort := some 0x6000000000 } = .next t ∧
        controller t ≠ controller { runningState with running := false }) ∧
      (∃ t, runEvent .accept { runningState with cmdPort := some 0x5000000000 } = .next t ∧
        controller t ≠ controller runningState) ∧
      (∃ t, runEvent .accept { State.reset with bias := 120, cmdPort := some 0x5000000000 } = .next t ∧
        controller t ≠ controller { State.reset with bias := 120 }) ∧
      (∃ t, runEvent .rdone (rampState 127) = .next t ∧ controller t ≠ controller (rampState 127)) ∧
      ∃ t, runEvent .reset runningState = .next t ∧ controller t ≠ controller runningState := by
  refine ⟨⟨_, rfl, ?_⟩, ⟨_, rfl, ?_⟩, ⟨_, rfl, ?_⟩, ⟨_, rfl, ?_⟩, ⟨_, rfl, ?_⟩, _, rfl, ?_⟩ <;> decide

theorem witness_PathEnablesFollowTheMode :
    State.reset.begun = false ∧ (runningState.begun = true ∧ runningState.mode = 1) ∧
      ({ runningState with mode := 0 } : State).mode = 0 ∧ ({ runningState with mode := 2 } : State).mode = 2 ∧
      runEvent .withdraw runningState = .next runningState ∧ Event.withdraw ≠ .reset := by
  refine ⟨rfl, ⟨rfl, rfl⟩, rfl, rfl, rfl, ?_⟩; decide

theorem witness_RampNeverOvershoots :
    (rampState 255).ramping = true ∧ Event.rdone ∉ [.rstep, .tick, .accept] ∧
      Event.reset ∉ [.rstep, .tick, .accept] ∧ 127 ≤ (rampState 255).bias.toNat ∧ (rampState 0).bias.toNat ≤ 127 := by
  decide

theorem witness_RampDurationIsBounded :
    (0 : ℚ) < 1 ∧ enabled .rstep (rampState 255) = true ∧
      runEvent .rstep (rampState 255) = .next (rstepEvent (rampState 255)) := by
  refine ⟨by norm_num, by decide, rfl⟩

theorem witness_FirstSampleAfterResume :
    (rampState 127).ramping = true ∧ (rampState 127).bias = 127 ∧ (rampState 127).begun = true ∧
      pendEmpty (rampState 127) = true ∧ (opField 0x6000000000).toNat = 6 := by decide

/-- A state that meets the invariants and is not the reset state, and a step from it. -/
theorem witness_StepKeepsTheInvariants :
    Invariant { tickState with agenda := [.withdraw] } ∧ Invariant (rampState 127) ∧
      step { tickState with agenda := [.withdraw] } = .next tickState := by
  refine ⟨by decide, by decide, rfl⟩

theorem witness_ReachableStatesMeetTheInvariants : Reachable (after (exec (.begin 1) State.reset)) :=
  .event .accept _ _ (.event (.present 0x1000000001) _ _ (.reset State.reset) rfl) rfl

theorem witness_AssemblerReducesItsArguments :
    (4 : Int) > 3 ∧ (-1 : Int) < 0 ∧ (3 : Int) = ((3 : Voice).val : Int) ∧
      AsmLine.wellFormed (.setfreq 0 ⟨440, 1⟩) = true := by decide

theorem witness_TuningWordIsTheRoundedQuotient :
    Config.sampleRateRef.isRate = true ∧ Freq.wellFormed ⟨0, 1⟩ = true ∧ Freq.wellFormed ⟨40440, 1⟩ = true ∧
      (⟨-1, 1⟩ : Freq).den ≠ 0 ∧ (⟨-1, 1⟩ : Freq).num < 0 := by decide

theorem witness_FrequencyWrapsAtTheSampleRate :
    Config.sampleRateRef.isRate = true ∧ Freq.wellFormed ⟨440, 1⟩ = true := by decide

/-- The state after those events, with the tuning word of voice 0 negated. -/
def mirroredState : State := writeTw (after (runEventsWith romRef toneEvents tickState)) 0 (-0x01000000)

/-- Both clauses: from the phase reached, and from a common phase. -/
theorem witness_AliasedVoiceRunsBackwards :
    (tickState.running = true ∧ mirroredState.running = true ∧
        alongRun (keepsTone 0) romRef toneEvents tickState = true ∧
        alongRun (keepsTone 0) romRef [.tick, .tick, .rstep, .tick] mirroredState = true ∧
        mirroredState.tw.get 0 = -(tickState.tw.get 0) ∧
        [Event.tick, .tick, .rstep, .tick].count .tick = toneEvents.count .tick ∧
        mirroredState.ph.get 0 = (after (runEventsWith romRef toneEvents tickState)).ph.get 0) ∧
      (writeTw tickState 0 (-0x01000000)).ph.get 0 = tickState.ph.get 0 ∧ (1 : Word) ≠ 0 ∧ (0x80000000 : Word) ≠ 0 := by
  decide

/-- The reference rate and a frequency below Nyquist, and Nyquist itself. -/
theorem witness_ToneIsWithinHalfAResolutionStep :
    Config.sampleRateRef.isRate = true ∧ Freq.wellFormed ⟨20000, 1⟩ = true ∧
      2 * hertz ⟨440, 1⟩ ≤ hertz Config.sampleRateRef ∧ 2 * hertz ⟨20000, 1⟩ ≤ hertz Config.sampleRateRef := by
  refine ⟨by decide, by decide, ?_, ?_⟩ <;> norm_num [hertz, Config.sampleRateRef]

end Sys2Proof.Tests
end

section
/-!
PROOFS. The executions of 00_scope.md: an agenda is performed in order (O6), an event that is not enabled changes
nothing (O8), and under weak fairness the command port is ready again and again (O41).
-/

namespace Sys2Proof.Machine

/-! ### Events that are not enabled -/

section Disabled

variable {s : State}

/-- What a command does to the state when it is accepted. -/
def effect : Instr → State → State
  | .nop, s => s
  | .begin m, s => if s.begun then s else startUp s m
  | .setwave b0 b1 b2 b3, s => queueKinds s (kindOperand b0 b1 b2 b3)
  | .settw v t, s => writeTw s v t
  | .setvol b0 b1 b2 b3, s => queueAmps s (ampOperand b0 b1 b2 b3)
  | .suspend, s => if alreadySuspended s then s else setRamping s true
  | .resume, s => if s.begun then setRunning s true else s

/-- Every command is an ACCEPT step of one shape (30_encoding.md R52). -/
theorem exec_eq_acceptCommand (i : Instr) (s : State) : exec i s = acceptCommand s (effect i) := by
  cases i <;> rfl

/-- While the port is not ready every command waits (30_encoding.md R52). -/
theorem exec_waits (i : Instr) (h : cmdReady s = false) : exec i s = .next s := by
  rw [exec_eq_acceptCommand, acceptCommand_waits h]

theorem takeWord_waits (h : cmdReady s = false) : takeWord s = s := by
  simp [takeWord, h]

theorem acceptEvent_disabled (h : enabled .accept s = false) : acceptEvent s = .next s := by
  obtain ⟨w, hw, he⟩ | ⟨-, he⟩ := acceptEvent_cases s
  · have hr : cmdReady s = false := by simpa [enabled, cmdValid, hw] using h
    rw [he, takeWord_waits hr, exec_waits _ hr]
  · exact he

theorem commitEvent_disabled (f : PendField) (i : Voice) (h : enabled (.commit f i) s = false) :
    commitEvent f i s = s := by
  cases f with
  | kind =>
    obtain ⟨k, hk, -⟩ | ⟨-, he⟩ := commitEvent_kind_cases i s
    · simp [enabled, hk] at h
    · exact he
  | amp =>
    obtain ⟨a, ha, -⟩ | ⟨-, he⟩ := commitEvent_amp_cases i s
    · simp [enabled, ha] at h
    · exact he

theorem tickEvent_disabled (rom : RomTable) (h : enabled .tick s = false) : tickEvent rom s = s :=
  if_neg (ne_true_of_eq_false h)

theorem enabled_rstep_iff : enabled .rstep s = true ↔ s.ramping = true ∧ s.bias ≠ 127 := by
  simp [enabled, Config.biasCenter]

theorem enabled_rdone_iff : enabled .rdone s = true ↔ s.ramping = true ∧ s.bias = 127 := by
  simp [enabled, Config.biasCenter]

theorem rstepEvent_disabled (h : enabled .rstep s = false) : rstepEvent s = s :=
  if_neg (ne_true_of_eq_false h)

theorem rdoneEvent_disabled (h : enabled .rdone s = false) : rdoneEvent s = s :=
  if_neg (ne_true_of_eq_false h)

theorem runEventWith_disabled (rom : RomTable) {e : Event} (h : enabled e s = false) :
    runEventWith rom e s = .next s := by
  cases e with
  | present w => cases h
  | withdraw => cases h
  | accept => exact acceptEvent_disabled h
  | commit f i => exact congrArg _ (commitEvent_disabled f i h)
  | tick => exact congrArg _ (tickEvent_disabled rom h)
  | rstep => exact congrArg _ (rstepEvent_disabled h)
  | rdone => exact congrArg _ (rdoneEvent_disabled h)
  | reset => cases h

end Disabled

/-- Settles O8: event by event, from the enabling condition of each. -/
theorem disabledEventsChangeNothing : Obligations.DisabledEventsChangeNothing :=
  fun rom _ _ h => runEventWith_disabled rom h

/-! ### The agenda

No event reads or writes the agenda, so an event commutes with a change of the agenda; the step of the machine, which
performs an event on a state whose agenda is one event shorter, is then that event on any agenda. -/

section Agenda

/-- The state with another agenda. -/
def setAgenda (a : List Event) (s : State) : State := { s with agenda := a }

/-- The function neither reads nor writes the agenda. -/
def AgendaFree (f : State → State) : Prop := ∀ a s, f (setAgenda a s) = setAgenda a (f s)

/-- The operation always has a next state, and neither reads nor writes the agenda. -/
def RunsAgendaFree (x : State → Result) : Prop :=
  ∀ s, ∃ t, x s = .next t ∧ ∀ a, x (setAgenda a s) = .next (setAgenda a t)

theorem setAgenda_of_agenda_eq {a : List Event} {s : State} (h : s.agenda = a) : setAgenda a s = s := by
  rw [← h]; rfl

theorem cmdReady_setAgenda (a : List Event) (s : State) : cmdReady (setAgenda a s) = cmdReady s := rfl

theorem AgendaFree.runs {f : State → State} (hf : AgendaFree f) : RunsAgendaFree fun s => .next (f s) :=
  fun s => ⟨f s, rfl, fun a => congrArg _ (hf a s)⟩

/-- A choice by a condition that does not read the agenda. -/
theorem AgendaFree.ite {c : State → Bool} {f g : State → State} (hc : ∀ a s, c (setAgenda a s) = c s)
    (hf : AgendaFree f) (hg : AgendaFree g) : AgendaFree fun s => if c s then f s else g s := fun a s => by
  change (if c (setAgenda a s) then f (setAgenda a s) else g (setAgenda a s)) = _
  rw [hc, hf, hg, ← apply_ite (setAgenda a)]

theorem agendaFree_id : AgendaFree fun s => s := fun _ _ => rfl

theorem acceptCommand_agendaFree {f : State → State} (hf : AgendaFree f) :
    RunsAgendaFree fun s => acceptCommand s f := by
  intro s
  cases h : cmdReady s with
  | true =>
    exact ⟨f s, acceptCommand_ready h, fun a =>
      (acceptCommand_ready ((cmdReady_setAgenda a s).trans h)).trans (congrArg _ (hf a s))⟩
  | false => exact ⟨s, acceptCommand_waits h, fun a => acceptCommand_waits ((cmdReady_setAgenda a s).trans h)⟩

theorem effect_agendaFree (i : Instr) : AgendaFree (effect i) := by
  cases i with
  | nop => exact agendaFree_id
  | begin m => exact .ite (c := State.begun) (fun _ _ => rfl) agendaFree_id (g := (startUp · m)) fun _ _ => rfl
  | setwave b0 b1 b2 b3 => exact fun _ _ => rfl
  | settw v t => exact fun _ _ => rfl
  | setvol b0 b1 b2 b3 => exact fun _ _ => rfl
  | suspend =>
    exact .ite (c := alreadySuspended) (fun _ _ => rfl) agendaFree_id (g := (setRamping · true)) fun _ _ => rfl
  | resume => exact .ite (c := State.begun) (f := (setRunning · true)) (fun _ _ => rfl) (fun _ _ => rfl) agendaFree_id

theorem exec_agendaFree (i : Instr) : RunsAgendaFree (exec i) := by
  rw [funext (exec_eq_acceptCommand i)]
  exact acceptCommand_agendaFree (effect_agendaFree i)

theorem takeWord_agendaFree : AgendaFree takeWord :=
  .ite (f := fun s => { s with cmdPort := none }) cmdReady_setAgenda (fun _ _ => rfl) agendaFree_id

theorem acceptEvent_agendaFree : RunsAgendaFree acceptEvent := by
  intro s
  cases h : s.cmdPort with
  | none => exact ⟨s, by simp [acceptEvent, h], fun a => by simp [acceptEvent, setAgenda, h]⟩
  | some w =>
    obtain ⟨t, ht, hta⟩ := exec_agendaFree (decode w) (takeWord s)
    refine ⟨t, by simpa [acceptEvent, h] using ht, fun a => ?_⟩
    have hp : (setAgenda a s).cmdPort = some w := h
    simpa [acceptEvent, hp, takeWord_agendaFree a s] using hta a

theorem commitEvent_agendaFree (f : PendField) (i : Voice) : AgendaFree (commitEvent f i) := by
  intro a s
  cases f with
  | kind => simp only [commitEvent, setAgenda]; cases s.pendKind.get i <;> rfl
  | amp => simp only [commitEvent, setAgenda]; cases s.pendAmp.get i <;> rfl

theorem runEventWith_agendaFree (rom : RomTable) (e : Event) : RunsAgendaFree (runEventWith rom e) := by
  cases e with
  | present w => exact AgendaFree.runs fun _ _ => rfl
  | withdraw => exact AgendaFree.runs fun _ _ => rfl
  | accept => exact acceptEvent_agendaFree
  | commit f i => exact (commitEvent_agendaFree f i).runs
  | tick => exact (AgendaFree.ite (fun _ _ => rfl) (fun _ _ => rfl) agendaFree_id).runs
  | rstep =>
    exact (AgendaFree.ite (f := fun s => { s with bias := biasTowardCenter s.bias }) (fun _ _ => rfl)
      (fun _ _ => rfl) agendaFree_id).runs
  | rdone =>
    exact (AgendaFree.ite (f := fun s => { setRamping (setRunning s false) false with ph := Quad.fill 0 })
      (fun _ _ => rfl) (fun _ _ => rfl) agendaFree_id).runs
  | reset => exact AgendaFree.runs fun _ _ => rfl

theorem step_of_agenda_cons {e : Event} {es : List Event} {s : State} (h : s.agenda = e :: es) :
    step s = runEvent e (setAgenda es s) := by
  rw [step, nextEvent_cons h, advanceAgenda_cons h, setAgenda]

theorem run_succ_of_step (M : Host.Core) {s t : M.State} (k : Nat) (h : M.step s = .next t) :
    M.run (k + 1) s = M.run k t := by
  rw [Host.Core.run, h]

theorem core_run_agenda (es rest : List Event) (s : State) (h : s.agenda = es ++ rest) :
    core.run es.length s = runEvents es (setAgenda rest s) := by
  induction es generalizing s with
  | nil => exact congrArg Host.Outcome.next (setAgenda_of_agenda_eq h).symm
  | cons e es ih =>
    obtain ⟨t, -, ht⟩ := runEventWith_agendaFree Config.rom e s
    have hstep : step s = .next (setAgenda (es ++ rest) t) := (step_of_agenda_cons h).trans (ht _)
    have hhead : core.run (es.length + 1) s = core.run es.length (setAgenda (es ++ rest) t) :=
      run_succ_of_step core _ hstep
    have htail : core.run es.length (setAgenda (es ++ rest) t) = runEvents es (setAgenda rest t) := ih _ rfl
    have hcons : runEvents (e :: es) (setAgenda rest s) = runEvents es (setAgenda rest t) :=
      runEventsWith_cons (ht rest)
    exact hhead.trans (htail.trans hcons.symm)

end Agenda

/-- Settles O6, by induction on the events of the agenda. -/
theorem agendaIsPerformedInOrder : Obligations.AgendaIsPerformedInOrder := core_run_agenda

/-! ### The port becomes ready again

While the port is not ready, no command is accepted, so only COMMIT, RSTEP and RDONE move the state that `cmd_ready`
depends on. Each of them, taken, lowers `workLeft`; nothing raises it; and one of them is always enabled. -/

section Liveness

variable {s t : State} {e : Event} {rom : RomTable} {r : Nat → State} {ev : Nat → Event}

/-- The steps of the internal agents, those of which R9 promises fairness. -/
inductive AgentStep : Event → Prop
  | commit (f : PendField) (i : Voice) : AgentStep (.commit f i)
  | rstep : AgentStep .rstep
  | rdone : AgentStep .rdone

theorem fairAgents_iff : FairAgents r ev ↔ ∀ e, AgentStep e → WeaklyFair e r ev := by
  refine ⟨fun ⟨hc, hs, hd⟩ e he => ?_, fun h => ⟨fun f i => h _ (.commit f i), h _ .rstep, h _ .rdone⟩⟩
  cases he with
  | commit f i => exact hc f i
  | rstep => exact hs
  | rdone => exact hd

/-- The part of the state that the internal agents work on: the pending writes and the ramp. -/
def agentState (s : State) : Quad (Option KindCode) × Quad (Option Byte) × Bool × Byte :=
  (s.pendKind, s.pendAmp, s.ramping, s.bias)

/-- How many steps of the internal agents are still to come before the port is ready. -/
def workLeft (s : State) : Nat := pendingCount s + if s.ramping then biasDistance s.bias + 1 else 0

theorem agentState_eq_iff : agentState t = agentState s ↔
    t.pendKind = s.pendKind ∧ t.pendAmp = s.pendAmp ∧ t.ramping = s.ramping ∧ t.bias = s.bias := by
  simp [agentState]

theorem workLeft_congr (h : agentState t = agentState s) : workLeft t = workLeft s := by
  obtain ⟨hk, ha, hr, hb⟩ := agentState_eq_iff.mp h
  simp only [workLeft, pendingCount, hk, ha, hr, hb]

theorem AgentStep.enabled_congr (he : AgentStep e) (h : agentState t = agentState s) : enabled e t = enabled e s := by
  obtain ⟨hk, ha, hr, hb⟩ := agentState_eq_iff.mp h
  cases he with
  | commit f i => cases f <;> simp only [enabled, hk, ha]
  | rstep => simp only [enabled, hr, hb]
  | rdone => simp only [enabled, hr, hb]

/-- Removing an entry lowers the number of entries by one. -/
theorem countP_isSome_set_none {α : Type} (q : Quad (Option α)) {i : Voice} (h : (q.get i).isSome = true) :
    ([0, 1, 2, 3] : List Voice).countP (fun j => ((q.set i none).get j).isSome) + 1 =
      ([0, 1, 2, 3] : List Voice).countP (fun j => (q.get j).isSome) := by
  fin_cases i <;> simp_all [List.countP_cons, Quad.get, Quad.set] <;> omega

theorem pendingCount_commitEvent (f : PendField) (i : Voice) (h : enabled (.commit f i) s = true) :
    pendingCount (commitEvent f i s) + 1 = pendingCount s := by
  cases f with
  | kind =>
    obtain ⟨k, hk, he⟩ | ⟨hn, -⟩ := commitEvent_kind_cases i s
    · have hc := countP_isSome_set_none s.pendKind h
      simp only [he, pendingCount]
      omega
    · simp [enabled, hn] at h
  | amp =>
    obtain ⟨a, ha, he⟩ | ⟨hn, -⟩ := commitEvent_amp_cases i s
    · have hc := countP_isSome_set_none s.pendAmp h
      simp only [he, pendingCount]
      omega
    · simp [enabled, hn] at h

/-- A COMMIT leaves the ramp as it is. -/
theorem commitEvent_ramp (f : PendField) (i : Voice) (s : State) :
    (commitEvent f i s).ramping = s.ramping ∧ (commitEvent f i s).bias = s.bias := by
  cases f with
  | kind => obtain ⟨k, -, he⟩ | ⟨-, he⟩ := commitEvent_kind_cases i s <;> simp [he]
  | amp => obtain ⟨a, -, he⟩ | ⟨-, he⟩ := commitEvent_amp_cases i s <;> simp [he]

theorem biasDistance_biasTowardCenter {b : Byte} (h : b ≠ 127) :
    biasDistance (biasTowardCenter b) + 1 = biasDistance b := by
  have hne : b.toNat ≠ 127 := fun hb => h (BitVec.eq_of_toNat_eq hb)
  have hlt : b.toNat < 256 := b.isLt
  unfold biasDistance biasTowardCenter Config.biasCenter
  split
  · next hgt =>
    have hsub : (b - 1).toNat = b.toNat - 1 := by bv_omega
    have : 127 < b.toNat := hgt
    omega
  · next hle =>
    have hadd : (b + 1).toNat = b.toNat + 1 := by bv_omega
    have : ¬ 127 < b.toNat := hle
    omega

/-- A step of an internal agent that is taken leaves less work. -/
theorem AgentStep.workLeft_lt (he : AgentStep e) (hen : enabled e s = true) (h : runEventWith rom e s = .next t) :
    workLeft t < workLeft s := by
  cases he with
  | commit f i =>
    obtain rfl : commitEvent f i s = t := Host.Outcome.next.inj h
    obtain ⟨hr, hb⟩ := commitEvent_ramp f i s
    have hc := pendingCount_commitEvent f i hen
    simp only [workLeft, hr, hb]
    omega
  | rstep =>
    obtain rfl : rstepEvent s = t := Host.Outcome.next.inj h
    obtain ⟨hr, hb⟩ := enabled_rstep_iff.mp hen
    have hd := biasDistance_biasTowardCenter hb
    have he : rstepEvent s = { s with bias := biasTowardCenter s.bias } := if_pos hen
    simp only [he, workLeft, pendingCount, hr, if_true]
    omega
  | rdone =>
    obtain rfl : rdoneEvent s = t := Host.Outcome.next.inj h
    obtain ⟨hr, -⟩ := enabled_rdone_iff.mp hen
    have he : rdoneEvent s = { setRamping (setRunning s false) false with ph := Quad.fill 0 } := if_pos hen
    simp [he, workLeft, pendingCount, hr]

theorem cmdReady_resetEvent (s : State) : cmdReady (resetEvent s) = true := by
  simp [cmdReady_iff, pendEmpty_iff]

/-- Before and after a step the port is not ready: then the step leaves what the agents work on as it is, or less
work. -/
theorem busy_step_cases (hs : cmdReady s = false) (ht : cmdReady t = false) (h : runEventWith rom e s = .next t) :
    agentState t = agentState s ∨ workLeft t < workLeft s := by
  cases hen : enabled e s with
  | false =>
    obtain rfl : s = t := Host.Outcome.next.inj ((runEventWith_disabled rom hen).symm.trans h)
    exact .inl rfl
  | true =>
    cases e with
    | present w => cases h; exact .inl rfl
    | withdraw => cases h; exact .inl rfl
    | accept => simp [enabled, hs] at hen
    | commit f i => exact .inr ((AgentStep.commit f i).workLeft_lt hen h)
    | tick =>
      obtain rfl : tickEvent rom s = t := Host.Outcome.next.inj h
      obtain ⟨-, he⟩ | ⟨-, he⟩ := tickEvent_cases rom s <;> rw [he] <;> exact .inl rfl
    | rstep => exact .inr (AgentStep.rstep.workLeft_lt hen h)
    | rdone => exact .inr (AgentStep.rdone.workLeft_lt hen h)
    | reset => cases h; simp [cmdReady_resetEvent] at ht

theorem exists_commit_enabled (h : pendEmpty s = false) : ∃ f i, enabled (.commit f i) s = true := by
  by_contra hno
  push Not at hno
  have hk : s.pendKind = Quad.fill none := (Quad.eq_fill_iff _ _).mpr fun i => by simpa [enabled] using hno .kind i
  have ha : s.pendAmp = Quad.fill none := (Quad.eq_fill_iff _ _).mpr fun i => by simpa [enabled] using hno .amp i
  simp [pendEmpty_iff.mpr ⟨hk, ha⟩] at h

/-- While the port is not ready there is a step for an internal agent to take. -/
theorem exists_agentStep_enabled (h : cmdReady s = false) : ∃ e, AgentStep e ∧ enabled e s = true := by
  cases hr : s.ramping with
  | true =>
    by_cases hb : s.bias = 127
    · exact ⟨.rdone, .rdone, enabled_rdone_iff.mpr ⟨hr, hb⟩⟩
    · exact ⟨.rstep, .rstep, enabled_rstep_iff.mpr ⟨hr, hb⟩⟩
  | false =>
    obtain ⟨f, i, hen⟩ := exists_commit_enabled (s := s) (by simpa [cmdReady, hr] using h)
    exact ⟨.commit f i, .commit f i, hen⟩

/-- A fair run in which the port stays unready comes to a place with less work left: otherwise an agent's step that is
enabled would stay enabled for ever, and so be taken. -/
theorem workLeft_decreases (hrun : IsRun r ev) (hfair : FairAgents r ev) (n : Nat)
    (hbusy : ∀ m, n ≤ m → cmdReady (r m) = false) : ∃ m, n ≤ m ∧ workLeft (r m) < workLeft (r n) := by
  by_contra hno
  push Not at hno
  have hconst : ∀ m, n ≤ m → agentState (r m) = agentState (r n) := by
    intro m hm
    induction m, hm using Nat.le_induction with
    | base => rfl
    | succ m hm ih =>
      obtain heq | hlt := busy_step_cases (hbusy m hm) (hbusy (m + 1) (by omega)) (hrun m)
      · exact heq.trans ih
      · have hge := hno (m + 1) (by omega)
        rw [workLeft_congr ih] at hlt
        omega
  obtain ⟨e, he, hen⟩ := exists_agentStep_enabled (hbusy n le_rfl)
  obtain ⟨m, hm, hev, hen'⟩ :=
    fairAgents_iff.mp hfair e he n fun m hm => (he.enabled_congr (hconst m hm)).trans hen
  have hlt : workLeft (r (m + 1)) < workLeft (r m) := he.workLeft_lt hen' (hev ▸ hrun m)
  have hge := hno (m + 1) (by omega)
  rw [workLeft_congr (hconst m hm)] at hlt
  omega

theorem exists_ready (hrun : IsRun r ev) (hfair : FairAgents r ev) (n : Nat) :
    ∃ m, n ≤ m ∧ cmdReady (r m) = true := by
  induction hk : workLeft (r n) using Nat.strong_induction_on generalizing n with
  | _ k ih =>
    by_contra hno
    push Not at hno
    obtain ⟨m, hm, hlt⟩ := workLeft_decreases hrun hfair n fun m hm => by simpa using hno m hm
    obtain ⟨m', hm', hready⟩ := ih _ (hk ▸ hlt) m rfl
    exact hno m' (hm.trans hm') hready

end Liveness

/-- Settles O41, by induction on the work left to the internal agents. -/
theorem everyCallReturns : Obligations.EveryCallReturns := fun _ _ hrun hfair n => exists_ready hrun hfair n

end Sys2Proof.Machine
end

section
/-!
PROOFS. The state of 10_state.md: every step keeps the invariants V1 to V7 of R29 (O51), so every reachable state meets
them (O52, O50); which event writes which field (O26); what RESET leaves (O25).
-/

namespace Sys2Proof

theorem Quad.forall_get_set_ne {α : Type} {q : Quad α} {a c : α} (h : ∀ j : Voice, q.get j ≠ c) (i : Voice)
    (ha : a ≠ c) (j : Voice) : (q.set i a).get j ≠ c := by
  rw [get_set]
  split
  · exact ha
  · exact h j

end Sys2Proof

namespace Sys2Proof.Machine

/-! ### What each event writes -/

section Writes

variable {s t : State}

/-- What an ACCEPT that answers has done: the command on a ready port has its effect and its word is gone, or nothing
happened. -/
theorem acceptEvent_next_cases (h : acceptEvent s = .next t) :
    (∃ w, s.cmdPort = some w ∧ cmdReady s = true ∧ t = effect (decode w) { s with cmdPort := none }) ∨ t = s := by
  cases hr : cmdReady s with
  | false =>
    have hd : enabled .accept s = false := by simp [enabled, hr]
    exact .inr (Host.Outcome.next.inj ((acceptEvent_disabled hd).symm.trans h)).symm
  | true =>
    obtain ⟨w, hw, he⟩ | ⟨-, he⟩ := acceptEvent_cases s
    · have ht : takeWord s = { s with cmdPort := none } := if_pos hr
      have hx : acceptEvent s = .next (effect (decode w) { s with cmdPort := none }) := by
        rw [he, ht, exec_eq_acceptCommand]
        exact acceptCommand_ready hr
      exact .inl ⟨w, hw, rfl, (Host.Outcome.next.inj (hx.symm.trans h)).symm⟩
    · exact .inr (Host.Outcome.next.inj (he.symm.trans h)).symm

theorem effect_begin_cases (m : Byte) (s : State) :
    (s.begun = true ∧ effect (.begin m) s = s) ∨ (s.begun = false ∧ effect (.begin m) s = startUp s m) := by
  cases hb : s.begun with
  | true => exact .inl ⟨rfl, if_pos hb⟩
  | false => exact .inr ⟨rfl, if_neg (ne_true_of_eq_false hb)⟩

theorem effect_suspend_cases (s : State) :
    (alreadySuspended s = true ∧ effect .suspend s = s) ∨
      (alreadySuspended s = false ∧ effect .suspend s = setRamping s true) := by
  cases ha : alreadySuspended s with
  | true => exact .inl ⟨rfl, if_pos ha⟩
  | false => exact .inr ⟨rfl, if_neg (ne_true_of_eq_false ha)⟩

theorem effect_resume_cases (s : State) :
    (s.begun = true ∧ effect .resume s = setRunning s true) ∨ (s.begun = false ∧ effect .resume s = s) := by
  cases hb : s.begun with
  | true => exact .inl ⟨rfl, if_pos hb⟩
  | false => exact .inr ⟨rfl, if_neg (ne_true_of_eq_false hb)⟩

end Writes

/-- Settles O26, event by event and, for ACCEPT, command by command: the `_cases` lemma of each names the
fields it writes. -/
theorem writeMatrix : Obligations.WriteMatrix := by
  intro e s t h
  cases e with
  | present w => cases h; simp
  | withdraw => cases h; simp
  | accept =>
    obtain ⟨w, hw, hr, rfl⟩ | rfl := acceptEvent_next_cases h
    · cases hd : decode w with
      | nop => simp [effect, hw, hr]
      | begin m =>
        obtain ⟨-, he⟩ | ⟨-, he⟩ := effect_begin_cases m { s with cmdPort := none } <;> simp [he, hw, hr, hd]
      | setwave b0 b1 b2 b3 => simp [effect, hw, hr, hd]
      | settw v x => simp [effect, hw, hr, hd]
      | setvol b0 b1 b2 b3 => simp [effect, hw, hr, hd]
      | suspend =>
        obtain ⟨-, he⟩ | ⟨-, he⟩ := effect_suspend_cases { s with cmdPort := none } <;> simp [he, hw, hr, hd]
      | resume =>
        obtain ⟨-, he⟩ | ⟨-, he⟩ := effect_resume_cases { s with cmdPort := none } <;> simp [he, hw, hr, hd]
    · simp
  | commit f i =>
    obtain rfl : commitEvent f i s = t := Host.Outcome.next.inj h
    cases f with
    | kind => obtain ⟨k, -, he⟩ | ⟨-, he⟩ := commitEvent_kind_cases i s <;> simp [he]
    | amp => obtain ⟨a, -, he⟩ | ⟨-, he⟩ := commitEvent_amp_cases i s <;> simp [he]
  | tick =>
    obtain rfl : tickEvent Config.rom s = t := Host.Outcome.next.inj h
    obtain ⟨-, he⟩ | ⟨-, he⟩ := tickEvent_cases Config.rom s <;> simp [he]
  | rstep =>
    obtain rfl : rstepEvent s = t := Host.Outcome.next.inj h
    obtain ⟨-, -, he⟩ | ⟨-, he⟩ := rstepEvent_cases s <;> simp [he]
  | rdone =>
    obtain rfl : rdoneEvent s = t := Host.Outcome.next.inj h
    obtain ⟨-, -, he⟩ | ⟨-, he⟩ := rdoneEvent_cases s <;> simp [he]
  | reset => cases h; simp

/-! ### RESET -/

/-- RESET gives every piece of TPCORE's state its reset value (R27). -/
theorem atResetValues_resetEvent (s : State) : atResetValues (resetEvent s) := by
  simp [atResetValues]

/-- Settles O25: RESET of the reset state is the reset state, and the outputs are read off the reset values. -/
theorem resetValues : Obligations.ResetValues := by
  refine ⟨atResetValues_resetEvent State.reset, fun s => ⟨resetEvent s, rfl, ?_⟩⟩
  refine ⟨atResetValues_resetEvent s, resetEvent_trace s, ?_, cmdReady_resetEvent s, ?_⟩
  · simp [controller]
  · simp [sclkEn, levelOut, modeOut, pathAEn, pathBEn]

/-! ### The invariants

No clause of `Invariant` reads the port, the trace, the agenda or the counter, so a state that differs only there meets
it by the same proof. -/

section Invariants

variable {s t : State}

theorem normKind_ne_three (b : Byte) : normKind b ≠ 3 := by
  unfold normKind
  split
  · decide
  · split <;> decide

theorem normMode_ne_three (b : Byte) : normMode b ≠ 3 := normKind_ne_three b

theorem kindOperand_get_ne_three (b0 b1 b2 b3 : Byte) (i : Voice) : (kindOperand b0 b1 b2 b3).get i ≠ 3 := by
  fin_cases i <;> exact normKind_ne_three _

/-- With the bias at its centre there is no ramp step to take. -/
theorem Invariant.rstep_disabled (h : Invariant s) : enabled .rstep s = false := by
  obtain ⟨-, hbias, -⟩ := h
  rw [Bool.eq_false_iff]
  exact fun he => (enabled_rstep_iff.mp he).2 hbias

theorem invariant_resetEvent (s : State) : Invariant (resetEvent s) := by
  refine ⟨⟨?_, ?_, by simp⟩, rfl, nofun, nofun, nofun, ?_, .inl rfl⟩ <;> simp

/-- A command accepted at a ready port keeps the invariants: no ramp is in progress and nothing is pending. -/
theorem effect_keeps_invariant (h : Invariant s) (hready : cmdReady s = true) (i : Instr) :
    Invariant (effect i s) := by
  have ⟨⟨hkind, hpend, hmode⟩, hbias, hbegun, _, hrunning, hph, _⟩ := h
  obtain ⟨hramp, hempty⟩ := cmdReady_iff.mp hready
  obtain ⟨hnoKind, hnoAmp⟩ := pendEmpty_iff.mp hempty
  have hnoRamp : s.ramping ≠ true := ne_true_of_eq_false hramp
  cases i with
  | nop => exact h
  | begin m =>
    obtain ⟨-, he⟩ | ⟨-, he⟩ := effect_begin_cases m s
    · rw [he]; exact h
    · rw [he]
      exact ⟨⟨hkind, hpend, normMode_ne_three m⟩, rfl, fun _ => rfl, fun _ => hempty, fun _ => rfl, nofun,
        .inl hnoKind⟩
  | setwave b0 b1 b2 b3 =>
    have hqueued : ∀ i : Voice, ((kindOperand b0 b1 b2 b3).map some).get i ≠ some 3 := fun i hi =>
      kindOperand_get_ne_three b0 b1 b2 b3 i (by simpa using hi)
    exact ⟨⟨hkind, hqueued, hmode⟩, hbias, hbegun, fun hr => absurd hr hnoRamp, hrunning, hph, .inr hnoAmp⟩
  | settw v x => exact h
  | setvol b0 b1 b2 b3 =>
    exact ⟨⟨hkind, hpend, hmode⟩, hbias, hbegun, fun hr => absurd hr hnoRamp, hrunning, hph, .inl hnoKind⟩
  | suspend =>
    obtain ⟨-, he⟩ | ⟨hnot, he⟩ := effect_suspend_cases s
    · rw [he]; exact h
    · have hrun : s.running = true := by
        rw [Bool.eq_false_iff, ne_eq, alreadySuspended_iff] at hnot
        simpa [hbias] using hnot
      rw [he]
      exact ⟨⟨hkind, hpend, hmode⟩, hbias, hbegun, fun _ => hempty, fun _ => hrun, hph, .inl hnoKind⟩
  | resume =>
    obtain ⟨hb, he⟩ | ⟨-, he⟩ := effect_resume_cases s
    · rw [he]
      exact ⟨⟨hkind, hpend, hmode⟩, hbias, fun _ => hb, fun _ => hempty, fun _ => rfl, nofun, .inl hnoKind⟩
    · rw [he]; exact h

theorem acceptEvent_keeps_invariant (h : Invariant s) (ht : acceptEvent s = .next t) : Invariant t := by
  obtain ⟨w, -, hready, rfl⟩ | rfl := acceptEvent_next_cases ht
  · exact effect_keeps_invariant (s := { s with cmdPort := none }) h hready (decode w)
  · exact h

/-- A COMMIT keeps the invariants: what is pending is legal, is of one field, and excludes a ramp. -/
theorem commitEvent_keeps_invariant (h : Invariant s) (f : PendField) (i : Voice) : Invariant (commitEvent f i s) := by
  have ⟨⟨hkind, hpend, hmode⟩, hbias, hbegun, hquiet, hrunning, hph, hone⟩ := h
  cases f with
  | kind =>
    obtain ⟨k, hk, he⟩ | ⟨-, he⟩ := commitEvent_kind_cases i s
    · have hne : s.pendKind ≠ Quad.fill none := fun hnone => by simp [hnone] at hk
      have hramp : s.ramping ≠ true := fun hr => hne (pendEmpty_iff.mp (hquiet hr)).1
      have hk3 : k ≠ 3 := fun hk3 => hpend i (hk3 ▸ hk)
      rw [he]
      exact ⟨⟨Quad.forall_get_set_ne hkind i hk3, Quad.forall_get_set_ne hpend i (Option.some_ne_none 3).symm, hmode⟩,
        hbias, hbegun, fun hr => absurd hr hramp, hrunning, hph, .inr (hone.resolve_left hne)⟩
    · rw [he]; exact h
  | amp =>
    obtain ⟨a, ha, he⟩ | ⟨-, he⟩ := commitEvent_amp_cases i s
    · have hne : s.pendAmp ≠ Quad.fill none := fun hnone => by simp [hnone] at ha
      have hramp : s.ramping ≠ true := fun hr => hne (pendEmpty_iff.mp (hquiet hr)).2
      rw [he]
      exact ⟨⟨hkind, hpend, hmode⟩, hbias, hbegun, fun hr => absurd hr hramp, hrunning, hph,
        .inl (hone.resolve_right hne)⟩
    · rw [he]; exact h

/-- A TICK keeps the invariants: it moves the phases of a running block only. -/
theorem tickEvent_keeps_invariant (h : Invariant s) (rom : RomTable) : Invariant (tickEvent rom s) := by
  obtain ⟨hrun, he⟩ | ⟨-, he⟩ := tickEvent_cases rom s
  · obtain ⟨hcodes, hbias, hbegun, hquiet, hrunning, -, hone⟩ := h
    rw [he]
    refine ⟨hcodes, hbias, hbegun, hquiet, hrunning, ?_, hone⟩
    simp [hrun]
  · rw [he]; exact h

theorem rstepEvent_keeps_invariant (h : Invariant s) : Invariant (rstepEvent s) :=
  (rstepEvent_disabled h.rstep_disabled).symm ▸ h

/-- RDONE keeps the invariants: it clears the phases as it stops the block. -/
theorem rdoneEvent_keeps_invariant (h : Invariant s) : Invariant (rdoneEvent s) := by
  obtain ⟨-, -, he⟩ | ⟨-, he⟩ := rdoneEvent_cases s
  · obtain ⟨hcodes, hbias, -, -, -, -, hone⟩ := h
    rw [he]
    exact ⟨hcodes, hbias, nofun, nofun, nofun, fun _ => Quad.get_fill 0, hone⟩
  · rw [he]; exact h

theorem runEventWith_keeps_invariant {rom : RomTable} {e : Event} (h : Invariant s)
    (ht : runEventWith rom e s = .next t) : Invariant t := by
  cases e with
  | present w => cases ht; exact h
  | withdraw => cases ht; exact h
  | accept => exact acceptEvent_keeps_invariant h ht
  | commit f i => exact Host.Outcome.next.inj ht ▸ commitEvent_keeps_invariant h f i
  | tick => exact Host.Outcome.next.inj ht ▸ tickEvent_keeps_invariant h rom
  | rstep => exact Host.Outcome.next.inj ht ▸ rstepEvent_keeps_invariant h
  | rdone => exact Host.Outcome.next.inj ht ▸ rdoneEvent_keeps_invariant h
  | reset => exact Host.Outcome.next.inj ht ▸ invariant_resetEvent s

theorem advanceAgenda_keeps_invariant (h : Invariant s) : Invariant (advanceAgenda s) := by
  obtain ⟨e, es, -, he⟩ | ⟨-, he⟩ := advanceAgenda_cases s
  · rw [he]; exact h
  · rw [he]; exact h

theorem Reachable.invariant (h : Reachable s) : Invariant s := by
  induction h with
  | reset s => exact invariant_resetEvent s
  | event e s t _ ht ih => exact runEventWith_keeps_invariant ih ht

end Invariants

/-- Settles O51: a step is one event, performed on the state with the choice used up, and every event keeps the
invariants. -/
theorem stepKeepsTheInvariants : Obligations.StepKeepsTheInvariants :=
  fun _ _ h ht => runEventWith_keeps_invariant (advanceAgenda_keeps_invariant h) ht

/-- Settles O52, by induction on the events since the RESET. -/
theorem reachableStatesMeetTheInvariants : Obligations.ReachableStatesMeetTheInvariants :=
  fun _ h => ⟨h.invariant, h.invariant.rstep_disabled⟩

/-- Settles O50: RESET of the reset state is the reset state. -/
theorem resetMeetsTheInvariants : Obligations.ResetMeetsTheInvariants :=
  invariant_resetEvent State.reset

end Sys2Proof.Machine
end

section
/-!
PROOFS. The ROM and the ordering of 20_memory.md: the lookup and its address (O27), HOST and the ramp never race (O44),
and what the pending writes of a configuration command lead to, whatever the order of their COMMITs (O20, O38).
-/

namespace Sys2Proof

section Overlay

variable {α : Type}

theorem Quad.set_set (q : Quad α) (i : Voice) (a b : α) : (q.set i a).set i b = q.set i b := by
  fin_cases i <;> rfl

/-- The four values with the pending writes performed: what the voices hold once every write of `p` is committed. -/
def Quad.overlay (p : Quad (Option α)) (q : Quad α) : Quad α := Quad.ofFn fun i => (p.get i).getD (q.get i)

@[simp] theorem Quad.get_overlay (p : Quad (Option α)) (q : Quad α) (i : Voice) :
    (p.overlay q).get i = (p.get i).getD (q.get i) :=
  get_ofFn _ i

@[simp] theorem Quad.overlay_fill_none (q : Quad α) : (Quad.fill none).overlay q = q :=
  ext_get fun i => by simp

@[simp] theorem Quad.overlay_map_some (p q : Quad α) : (p.map some).overlay q = p :=
  ext_get fun i => by simp

/-- Performing one pending write and removing it leaves what all of them lead to. -/
theorem Quad.overlay_set {p : Quad (Option α)} {i : Voice} {a : α} (h : p.get i = some a) (q : Quad α) :
    (p.set i none).overlay (q.set i a) = p.overlay q := by
  refine ext_get fun j => ?_
  by_cases hj : j = i
  · subst hj; simp [h]
  · simp [get_set_of_ne _ _ hj]

end Overlay

end Sys2Proof

namespace Sys2Proof.Machine

/-! ### The ROM -/

theorem romAddr_toNat (k : KindCode) (n : Byte) : (romAddr k n).toNat = k.toNat * 256 + n.toNat := by
  rw [romAddr, BitVec.toNat_append, ← Nat.shiftLeft_add_eq_or_of_lt n.isLt, Nat.shiftLeft_eq]

/-- The two fields of a ROM address give back the kind code and the index. -/
theorem romAt_romAddr (rom : RomTable) (k : KindCode) (n : Byte) : romAt rom (romAddr k n) = romRead rom k n := by
  have hk : (romAddr k n).extractLsb' 8 2 = k := BitVec.extractLsb'_append_eq_left
  have hn : (romAddr k n).extractLsb' 0 8 = n := BitVec.extractLsb'_append_eq_right
  rw [romAt, hk, hn]

/-- Settles O27: the multiplexer is read off code by code, the address off its two fields. -/
theorem lookupFallsBackToSine : Obligations.LookupFallsBackToSine := fun rom n =>
  ⟨rfl, rfl, rfl, rfl, fun k => ⟨romAddr_toNat k n, romAt_romAddr rom k n⟩⟩

/-! ### HOST and the ramp -/

section Race

variable {s : State}

theorem cmdReady_of_enabled_accept (h : enabled .accept s = true) : cmdReady s = true :=
  (Bool.and_eq_true_iff.mp h).2

theorem ramping_of_cmdReady (h : cmdReady s = true) : s.ramping = false := (cmdReady_iff.mp h).1

theorem pendEmpty_of_cmdReady (h : cmdReady s = true) : pendEmpty s = true := (cmdReady_iff.mp h).2

theorem enabled_rstep_of_not_ramping (h : s.ramping = false) : enabled .rstep s = false := by
  simp [enabled, h]

theorem enabled_rdone_of_not_ramping (h : s.ramping = false) : enabled .rdone s = false := by
  simp [enabled, h]

theorem rdoneEvent_stops (h : enabled .rdone s = true) : (rdoneEvent s).running = false := by
  obtain ⟨hramp, hbias⟩ := enabled_rdone_iff.mp h
  obtain ⟨-, -, he⟩ | ⟨hno, -⟩ := rdoneEvent_cases s
  · rw [he]
  · simp [hramp, hbias] at hno

end Race

/-- Settles O44: ACCEPT needs `ramping = 0` and the ramp's steps need `ramping = 1`; RSTEP and RDONE need opposite
answers to `bias = 127`; RDONE stops the block. -/
theorem hostAndRampNeverRace : Obligations.HostAndRampNeverRace := by
  refine fun s => ⟨fun hacc => ?_, fun ⟨hstep, hdone⟩ => ?_, fun t hen ht => ?_⟩
  · have hramp := ramping_of_cmdReady (cmdReady_of_enabled_accept hacc)
    exact ⟨enabled_rstep_of_not_ramping hramp, enabled_rdone_of_not_ramping hramp⟩
  · obtain ⟨-, hoff⟩ := enabled_rstep_iff.mp hstep
    obtain ⟨-, hcentre⟩ := enabled_rdone_iff.mp hdone
    exact hoff hcentre
  · obtain rfl : rdoneEvent s = t := Host.Outcome.next.inj ht
    exact rdoneEvent_stops hen

/-! ### Runs of events that neither accept a command nor reset -/

section QuietRuns

variable {rom : RomTable} {e : Event} {es : List Event} {s t : State}

theorem exists_next_runEventsWith (rom : RomTable) (es : List Event) (s : State) :
    ∃ t, runEventsWith rom es s = .next t := by
  induction es generalizing s with
  | nil => exact ⟨s, rfl⟩
  | cons e es ih =>
    obtain ⟨x, hx, -⟩ := runEventWith_agendaFree rom e s
    obtain ⟨t, ht⟩ := ih x
    exact ⟨t, (runEventsWith_cons hx).trans ht⟩

/-- What each event of a list keeps, the whole run keeps. -/
theorem runEventsWith_keeps {P : State → Prop}
    (hstep : ∀ e ∈ es, ∀ s t, runEventWith rom e s = .next t → P s → P t)
    (h : runEventsWith rom es s = .next t) (hs : P s) : P t := by
  induction es generalizing s with
  | nil => exact Host.Outcome.next.inj h ▸ hs
  | cons e es ih =>
    obtain ⟨x, hx, -⟩ := runEventWith_agendaFree rom e s
    have htail : runEventsWith rom es x = .next t := (runEventsWith_cons hx).symm.trans h
    exact ih (fun e he => hstep e (List.mem_cons_of_mem _ he)) htail (hstep e List.mem_cons_self s x hx hs)

/-- The events other than ACCEPT and RESET. -/
def IsQuiet (e : Event) : Prop := e ≠ .accept ∧ e ≠ .reset

theorem isQuiet_of_notMem (hacc : .accept ∉ es) (hres : .reset ∉ es) : ∀ e ∈ es, IsQuiet e :=
  fun _ he => ⟨fun h => hacc (h ▸ he), fun h => hres (h ▸ he)⟩

/-- What HOST configures: tuning words, kinds and amplitudes. -/
structure VoiceConfig where
  tw : Quad Word
  kind : Quad KindCode
  amp : Quad Byte

/-- The configuration that a state holds. -/
def configOf (s : State) : VoiceConfig := ⟨s.tw, s.kind, s.amp⟩

/-- The state with another configuration. -/
def withConfig (c : VoiceConfig) (s : State) : State := { s with tw := c.tw, kind := c.kind, amp := c.amp }

@[simp] theorem configOf_withConfig (c : VoiceConfig) (s : State) : configOf (withConfig c s) = c := rfl

theorem withConfig_of_configOf_eq {c : VoiceConfig} (h : configOf s = c) : withConfig c s = s := by
  rw [← h]; rfl

/-- The state with every pending write performed. -/
def settled (s : State) : State :=
  { s with
    kind := s.pendKind.overlay s.kind, amp := s.pendAmp.overlay s.amp
    pendKind := Quad.fill none, pendAmp := Quad.fill none }

@[simp] theorem settled_kind (s : State) : (settled s).kind = s.pendKind.overlay s.kind := rfl
@[simp] theorem settled_amp (s : State) : (settled s).amp = s.pendAmp.overlay s.amp := rfl

theorem settled_of_pendEmpty (h : pendEmpty s = true) : settled s = s := by
  obtain ⟨ph, tw, kind, amp, mode, begun, running, ramping, bias, level, pendKind, pendAmp⟩ := s
  obtain ⟨rfl, rfl⟩ := pendEmpty_iff.mp h
  simp [settled]

/-- A COMMIT performs a write that is performed in the settled state already. -/
theorem settled_commitEvent (f : PendField) (i : Voice) (s : State) : settled (commitEvent f i s) = settled s := by
  cases f with
  | kind =>
    obtain ⟨k, hk, he⟩ | ⟨-, he⟩ := commitEvent_kind_cases i s
    · simp [he, settled, Quad.overlay_set hk]
    · rw [he]
  | amp =>
    obtain ⟨a, ha, he⟩ | ⟨-, he⟩ := commitEvent_amp_cases i s
    · simp [he, settled, Quad.overlay_set ha]
    · rw [he]

/-- A quiet event is a COMMIT, or leaves the configuration and what the pending writes make of it as they are. -/
theorem IsQuiet.cases (hq : IsQuiet e) (h : runEventWith rom e s = .next t) :
    (∃ f i, e = .commit f i ∧ t = commitEvent f i s) ∨
      (configOf t = configOf s ∧ configOf (settled t) = configOf (settled s)) := by
  cases e with
  | present w => cases h; exact .inr ⟨rfl, rfl⟩
  | withdraw => cases h; exact .inr ⟨rfl, rfl⟩
  | accept => exact absurd rfl hq.1
  | commit f i => exact .inl ⟨f, i, rfl, (Host.Outcome.next.inj h).symm⟩
  | tick =>
    obtain rfl : tickEvent rom s = t := Host.Outcome.next.inj h
    obtain ⟨-, he⟩ | ⟨-, he⟩ := tickEvent_cases rom s <;> rw [he] <;> exact .inr ⟨rfl, rfl⟩
  | rstep =>
    obtain rfl : rstepEvent s = t := Host.Outcome.next.inj h
    obtain ⟨-, -, he⟩ | ⟨-, he⟩ := rstepEvent_cases s <;> rw [he] <;> exact .inr ⟨rfl, rfl⟩
  | rdone =>
    obtain rfl : rdoneEvent s = t := Host.Outcome.next.inj h
    obtain ⟨-, -, he⟩ | ⟨-, he⟩ := rdoneEvent_cases s <;> rw [he] <;> exact .inr ⟨rfl, rfl⟩
  | reset => exact absurd rfl hq.2

/-- No quiet event changes what the configuration will be once all writes are committed. -/
theorem IsQuiet.configOf_settled (hq : IsQuiet e) (h : runEventWith rom e s = .next t) :
    configOf (settled t) = configOf (settled s) := by
  obtain ⟨f, i, -, rfl⟩ | ⟨-, hc⟩ := hq.cases h
  · rw [settled_commitEvent]
  · exact hc

theorem configOf_settled_of_quiet_run (hq : ∀ e ∈ es, IsQuiet e) (h : runEventsWith rom es s = .next t) :
    configOf (settled t) = configOf (settled s) :=
  runEventsWith_keeps (P := fun x => configOf (settled x) = configOf (settled s))
    (fun e he _ _ hx hs => ((hq e he).configOf_settled hx).trans hs) h rfl

theorem settled_of_commit_run (hc : ∀ e ∈ es, ∃ f i, e = .commit f i) (h : runEventsWith rom es s = .next t) :
    settled t = settled s := by
  refine runEventsWith_keeps (P := fun x => settled x = settled s) (fun e he x y hxy hx => ?_) h rfl
  obtain ⟨f, i, rfl⟩ := hc e he
  obtain rfl : commitEvent f i x = y := Host.Outcome.next.inj hxy
  exact (settled_commitEvent f i x).trans hx

end QuietRuns

/-! ### Old or new -/

section OldOrNew

variable {rom : RomTable} {e : Event} {es : List Event} {s t u : State}

/-- Every voice of `t` has the kind that it has in `s` or the one that it has once the writes pending in `s` are
committed, and likewise its amplitude. -/
def OldOrSettled (s t : State) : Prop :=
  ∀ i : Voice, (t.kind.get i = s.kind.get i ∨ t.kind.get i = (settled s).kind.get i) ∧
    (t.amp.get i = s.amp.get i ∨ t.amp.get i = (settled s).amp.get i)

theorem oldOrSettled_refl (s : State) : OldOrSettled s s := fun _ => ⟨.inl rfl, .inl rfl⟩

theorem oldOrSettled_of_configOf_eq (h : configOf t = configOf s) : OldOrSettled s t := by
  obtain ⟨-, hk, ha⟩ := VoiceConfig.mk.inj h
  exact fun i => ⟨.inl (by rw [hk]), .inl (by rw [ha])⟩

/-- A COMMIT replaces one old value by its pending one. -/
theorem oldOrSettled_commitEvent (f : PendField) (i : Voice) (s : State) : OldOrSettled s (commitEvent f i s) := by
  intro j
  cases f with
  | kind =>
    obtain ⟨k, hk, he⟩ | ⟨-, he⟩ := commitEvent_kind_cases i s
    · rw [he]
      by_cases hj : j = i
      · subst hj; simp [hk]
      · simp [Quad.get_set_of_ne _ _ hj]
    · rw [he]; exact oldOrSettled_refl s j
  | amp =>
    obtain ⟨a, ha, he⟩ | ⟨-, he⟩ := commitEvent_amp_cases i s
    · rw [he]
      by_cases hj : j = i
      · subst hj; simp [ha]
      · simp [Quad.get_set_of_ne _ _ hj]
    · rw [he]; exact oldOrSettled_refl s j

theorem IsQuiet.oldOrSettled (hq : IsQuiet e) (h : runEventWith rom e s = .next t) : OldOrSettled s t := by
  obtain ⟨f, i, -, rfl⟩ | ⟨hc, -⟩ := hq.cases h
  · exact oldOrSettled_commitEvent f i s
  · exact oldOrSettled_of_configOf_eq hc

theorem OldOrSettled.trans (hst : OldOrSettled s t) (hset : configOf (settled t) = configOf (settled s))
    (htu : OldOrSettled t u) : OldOrSettled s u := by
  obtain ⟨-, hk, ha⟩ := VoiceConfig.mk.inj hset
  intro i
  obtain ⟨hstk, hsta⟩ := hst i
  obtain ⟨htuk, htua⟩ := htu i
  rw [hk] at htuk
  rw [ha] at htua
  refine ⟨htuk.elim (fun h => ?_) .inr, htua.elim (fun h => ?_) .inr⟩
  · rwa [h]
  · rwa [h]

theorem oldOrSettled_of_quiet_run (hq : ∀ e ∈ es, IsQuiet e) (h : runEventsWith rom es s = .next t) :
    OldOrSettled s t := by
  have hkeep := runEventsWith_keeps
    (P := fun x => OldOrSettled s x ∧ configOf (settled x) = configOf (settled s))
    (fun e he _ _ hxy ⟨hold, hset⟩ =>
      ⟨hold.trans hset ((hq e he).oldOrSettled hxy), ((hq e he).configOf_settled hxy).trans hset⟩)
    h ⟨oldOrSettled_refl s, rfl⟩
  exact hkeep.1

/-- A field without pending writes keeps its value. -/
theorem OldOrSettled.kind_eq (h : OldOrSettled s t) (hp : s.pendKind = Quad.fill none) : t.kind = s.kind :=
  Quad.ext_get fun i => by simpa [hp] using (h i).1

theorem OldOrSettled.amp_eq (h : OldOrSettled s t) (hp : s.pendAmp = Quad.fill none) : t.amp = s.amp :=
  Quad.ext_get fun i => by simpa [hp] using (h i).2

end OldOrNew

theorem normKind_eq_fallbackCode (b : Byte) : normKind b = fallbackCode b := by
  simp [normKind, fallbackCode, BitVec.toNat_eq]

/-- The kind codes that a SETWAVE queues, voice by voice. -/
theorem kindOperand_get (b : Quad Byte) (i : Voice) :
    (kindOperand b.v0 b.v1 b.v2 b.v3).get i = fallbackCode (b.get i) := by
  fin_cases i <;> exact normKind_eq_fallbackCode _

theorem eq_effect_of_exec {i : Instr} {s u : State} (h : cmdReady s = true) (hu : exec i s = .next u) :
    u = effect i s := by
  rw [exec_eq_acceptCommand, acceptCommand_ready h] at hu
  exact (Host.Outcome.next.inj hu).symm

/-- Settles O38: along a quiet run every value is the old one or the settled one; a SETVOL settles in its bytes, a
SETWAVE in its normalised kinds, and neither has writes of the other field pending. -/
theorem eachVoiceIsOldOrNew : Obligations.EachVoiceIsOldOrNew := by
  intro rom s u b es hready hacc hres
  obtain ⟨hnoKind, hnoAmp⟩ := pendEmpty_iff.mp (pendEmpty_of_cmdReady hready)
  obtain ⟨t, ht⟩ := exists_next_runEventsWith rom es u
  have hold : OldOrSettled u t := oldOrSettled_of_quiet_run (isQuiet_of_notMem hacc hres) ht
  refine ⟨fun hu => ⟨t, ht, ?_⟩, fun hu => ⟨t, ht, ?_⟩⟩
  · obtain rfl := eq_effect_of_exec hready hu
    refine ⟨hold.kind_eq hnoKind, fun i => ?_⟩
    simpa [effect, ampOperand] using (hold i).2
  · obtain rfl := eq_effect_of_exec hready hu
    refine ⟨hold.amp_eq hnoAmp, fun i => ?_⟩
    simpa [effect, kindOperand_get] using (hold i).1

/-! ### Idempotence -/

section Idempotence

variable {rom : RomTable} {w : CmdWord} {es : List Event} {s t : State}

/-- What a command makes of the configuration, once its writes are committed. -/
def configure : Instr → VoiceConfig → VoiceConfig
  | .setwave b0 b1 b2 b3, c => { c with kind := kindOperand b0 b1 b2 b3 }
  | .settw v x, c => { c with tw := c.tw.set v x }
  | .setvol b0 b1 b2 b3, c => { c with amp := ampOperand b0 b1 b2 b3 }
  | .nop, c => c
  | .begin _, c => c
  | .suspend, c => c
  | .resume, c => c

theorem configure_idem (i : Instr) (c : VoiceConfig) : configure i (configure i c) = configure i c := by
  cases i with
  | settw v x => simp [configure, Quad.set_set]
  | nop => rfl
  | begin m => rfl
  | setwave b0 b1 b2 b3 => rfl
  | setvol b0 b1 b2 b3 => rfl
  | suspend => rfl
  | resume => rfl

theorem decode_configuration_cases (hlo : 2 ≤ (opField w).toNat) (hhi : (opField w).toNat ≤ 4) :
    (∃ b0 b1 b2 b3, decode w = .setwave b0 b1 b2 b3) ∨ (∃ v x, decode w = .settw v x) ∨
      ∃ b0 b1 b2 b3, decode w = .setvol b0 b1 b2 b3 := by
  obtain h | h | h : (opField w).toNat = 2 ∨ (opField w).toNat = 3 ∨ (opField w).toNat = 4 := by omega
  · exact .inl ⟨_, _, _, _, by rw [decode, h]; rfl⟩
  · exact .inr (.inl ⟨_, _, by rw [decode, h]; rfl⟩)
  · exact .inr (.inr ⟨_, _, _, _, by rw [decode, h]; rfl⟩)

/-- A configuration command whose writes are all committed has changed the configuration and nothing else. -/
theorem settled_effect_configuration (hlo : 2 ≤ (opField w).toNat) (hhi : (opField w).toNat ≤ 4)
    (hempty : pendEmpty s = true) :
    settled (effect (decode w) s) = withConfig (configure (decode w) (configOf s)) s := by
  obtain ⟨hk, ha⟩ := pendEmpty_iff.mp hempty
  obtain ⟨b0, b1, b2, b3, hd⟩ | ⟨v, x, hd⟩ | ⟨b0, b1, b2, b3, hd⟩ := decode_configuration_cases hlo hhi
  · simp [hd, effect, settled, withConfig, configure, configOf, queueKinds, hk, ha]
  · simp [hd, effect, settled, withConfig, configure, configOf, writeTw, hk, ha]
  · simp [hd, effect, settled, withConfig, configure, configOf, queueAmps, hk, ha]

/-- A word offered to a ready port is accepted. -/
theorem runEventsWith_offerEvents (rom : RomTable) (w : CmdWord) (es : List Event) (hready : cmdReady s = true) :
    runEventsWith rom (offerEvents w ++ es) s =
      runEventsWith rom es (effect (decode w) { s with cmdPort := none }) := by
  have hready' : cmdReady { s with cmdPort := none } = true := hready
  have htake : takeWord { s with cmdPort := some w } = { s with cmdPort := none } := if_pos hready
  have hacc : runEventWith rom .accept { s with cmdPort := some w } =
      .next (effect (decode w) { s with cmdPort := none }) := by
    change exec (decode w) (takeWord { s with cmdPort := some w }) = _
    rw [htake, exec_eq_acceptCommand, acceptCommand_ready hready']
  exact runEventsWith_cons hacc

/-- A configuration command offered to a ready port, followed by quiet events until the port is ready again: the new
configuration is a function of the old one, and where the events are COMMITs nothing else has changed. -/
theorem configuration_after_command (hlo : 2 ≤ (opField w).toNat) (hhi : (opField w).toNat ≤ 4)
    (hready : cmdReady s = true) (hq : ∀ e ∈ es, IsQuiet e)
    (h : runEventsWith rom (offerEvents w ++ es) s = .next t) (hdone : cmdReady t = true) :
    configOf t = configure (decode w) (configOf s) ∧
      ((∀ e ∈ es, ∃ f i, e = .commit f i) →
        t = withConfig (configure (decode w) (configOf s)) { s with cmdPort := none }) := by
  rw [runEventsWith_offerEvents rom w es hready] at h
  have ht : settled t = t := settled_of_pendEmpty (pendEmpty_of_cmdReady hdone)
  have heff := settled_effect_configuration (s := { s with cmdPort := none }) hlo hhi (pendEmpty_of_cmdReady hready)
  refine ⟨?_, fun hcommits => ?_⟩
  · calc configOf t = configOf (settled t) := by rw [ht]
      _ = configOf (settled (effect (decode w) { s with cmdPort := none })) := configOf_settled_of_quiet_run hq h
      _ = configure (decode w) (configOf s) := by rw [heff]; rfl
  · calc t = settled t := ht.symm
      _ = settled (effect (decode w) { s with cmdPort := none }) := settled_of_commit_run hcommits h
      _ = withConfig (configure (decode w) (configOf s)) { s with cmdPort := none } := heff

end Idempotence

/-- Settles O20: each time the command performs `configure`, which is idempotent, on the configuration; where only
COMMITs fall between it does nothing else. -/
theorem configurationIsIdempotent : Obligations.ConfigurationIsIdempotent := by
  intro rom w s es fs hlo hhi hready hacc hres hacc' hres'
  obtain ⟨t, ht⟩ := exists_next_runEventsWith rom (offerEvents w ++ es) s
  obtain ⟨u, hu⟩ := exists_next_runEventsWith rom (offerEvents w ++ fs) t
  refine ⟨t, u, ht, hu, fun htr hur => ?_⟩
  obtain ⟨htc, htState⟩ := configuration_after_command hlo hhi hready (isQuiet_of_notMem hacc hres) ht htr
  obtain ⟨huc, huState⟩ := configuration_after_command hlo hhi htr (isQuiet_of_notMem hacc' hres') hu hur
  have hsame : configure (decode w) (configOf t) = configOf t := by rw [htc, configure_idem]
  obtain ⟨htw, hkind, hamp⟩ := VoiceConfig.mk.inj (huc.trans hsame)
  obtain ⟨htk, hta⟩ := pendEmpty_iff.mp (pendEmpty_of_cmdReady htr)
  obtain ⟨huk, hua⟩ := pendEmpty_iff.mp (pendEmpty_of_cmdReady hur)
  refine ⟨htw, hkind, hamp, huk.trans htk.symm, hua.trans hta.symm, fun hcommits => ?_⟩
  obtain ⟨hes, hfs⟩ := List.forall_mem_append.mp hcommits
  have hport : { t with cmdPort := none } = t := by rw [htState hes]; rfl
  calc u = withConfig (configOf t) { t with cmdPort := none } := by rw [huState hfs, hsame]
    _ = t := by rw [hport]; exact withConfig_of_configOf_eq rfl

end Sys2Proof.Machine
end

section
/-!
PROOFS. The command words of 30_encoding.md: the decoder and the encoder (O1 to O4), the waiting and the acceptance of a
word (O5, O19), the assembler and the disassembler (O53, O57), and the tuning words of frequencies (O54, O55, O59).
-/

namespace Sys2Proof

/-! ### The fields of a word

A word is its four fields, and the encoder and the masks of R60 write words field by field; so a claim about a word
becomes one about its fields. -/

section Fields

variable {w : CmdWord}

theorem packWord_fields (w : CmdWord) : packWord (opField w) (w.extractLsb' 34 2) (rsvField w) (immField w) = w := by
  rw [packWord, opField, rsvField, immField, BitVec.extractLsb'_append_extractLsb'_eq_extractLsb' (by rfl),
    BitVec.extractLsb'_append_extractLsb'_eq_extractLsb' (by rfl),
    BitVec.extractLsb'_append_extractLsb'_eq_extractLsb' (by rfl)]
  exact BitVec.extractLsb'_eq_self

theorem packWord_and_packWord (op op' : BitVec 4) (v v' rsv rsv' : BitVec 2) (imm imm' : Word) :
    packWord op v rsv imm &&& packWord op' v' rsv' imm' =
      packWord (op &&& op') (v &&& v') (rsv &&& rsv') (imm &&& imm') := by
  simp only [packWord]
  rw [BitVec.and_append, BitVec.and_append, BitVec.and_append]

/-- The bytes of an operand, put together again. -/
theorem packBytes_immBytes (imm : Word) :
    packBytes (immByte imm 0) (immByte imm 1) (immByte imm 2) (immByte imm 3) = imm := by
  simp only [packBytes, immByte]
  rw [BitVec.extractLsb'_append_extractLsb'_eq_extractLsb' (by rfl),
    BitVec.extractLsb'_append_extractLsb'_eq_extractLsb' (by rfl),
    BitVec.extractLsb'_append_extractLsb'_eq_extractLsb' (by rfl)]
  exact BitVec.extractLsb'_eq_self

/-- BEGIN reads the lowest byte of its operand and no other bit (R60). -/
theorem setWidth_immByte_zero (imm : Word) : (immByte imm 0).setWidth 32 = imm &&& 0xFF := by
  have hmask : imm.toNat &&& 0xFF = imm.toNat % 2 ^ 8 := Nat.and_two_pow_sub_one_eq_mod _ 8
  have hlt : imm.toNat % 2 ^ 8 < 2 ^ 32 := by omega
  apply BitVec.eq_of_toNat_eq
  simpa [immByte, hmask] using hlt

theorem vField_ofNat (w : CmdWord) : BitVec.ofNat 2 (vField w).val = w.extractLsb' 34 2 :=
  (BitVec.ofNat_toNat 2 _).trans (BitVec.setWidth_eq _)

/-! The seven rows of the opcode map (R58), and the reserved opcodes (R59). -/

theorem decode_nop (h : opField w = 0) : decode w = .nop := by simp [decode, h]

theorem decode_begin (h : opField w = 1) : decode w = .begin (immByte (immField w) 0) := by simp [decode, h]

theorem decode_setwave (h : opField w = 2) : decode w = .setwave (immByte (immField w) 0) (immByte (immField w) 1)
    (immByte (immField w) 2) (immByte (immField w) 3) := by simp [decode, h]

theorem decode_settw (h : opField w = 3) : decode w = .settw (vField w) (immField w) := by simp [decode, h]

theorem decode_setvol (h : opField w = 4) : decode w = .setvol (immByte (immField w) 0) (immByte (immField w) 1)
    (immByte (immField w) 2) (immByte (immField w) 3) := by simp [decode, h]

theorem decode_suspend (h : opField w = 5) : decode w = .suspend := by simp [decode, h]

theorem decode_resume (h : opField w = 6) : decode w = .resume := by simp [decode, h]

theorem decode_reserved (h : 7 ≤ (opField w).toNat) : decode w = .nop := by
  unfold decode
  split
  case h_7 => rfl
  all_goals omega

end Fields

/-! ### Decoding and encoding -/

section Codec

variable {w w' : CmdWord}

theorem decode_encode (i : Instr) : decode (encode i) = i := by
  cases i with
  | nop => exact decode_nop (opField_packWord ..)
  | begin m => exact (decode_begin (opField_packWord ..)).trans (by simp)
  | setwave b0 b1 b2 b3 => exact (decode_setwave (opField_packWord ..)).trans (by simp [Quad.get])
  | settw v t =>
    have hv : vField (encode (.settw v t)) = v := Fin.ext (by simp [encode])
    have ht : immField (encode (.settw v t)) = t := immField_packWord ..
    exact (decode_settw (opField_packWord ..)).trans (congrArg₂ Instr.settw hv ht)
  | setvol b0 b1 b2 b3 => exact (decode_setvol (opField_packWord ..)).trans (by simp [Quad.get])
  | suspend => exact decode_suspend (opField_packWord ..)
  | resume => exact decode_resume (opField_packWord ..)

theorem opField_encode (i : Instr) : opField (encode i) = opcode i := by
  cases i <;> exact opField_packWord ..

theorem opcode_le_six (i : Instr) : (opcode i).toNat ≤ 6 := by
  cases i <;> simp [opcode]

/-- The opcodes, one by one as far as they name a command (R58, R59). -/
theorem opcode_cases (op : BitVec 4) :
    op = 0 ∨ op = 1 ∨ op = 2 ∨ op = 3 ∨ op = 4 ∨ op = 5 ∨ op = 6 ∨ 7 ≤ op.toNat := by
  bv_omega

theorem usedMask_reserved {op : BitVec 4} (h : 7 ≤ op.toNat) : usedMask op = 0xF000000000 := by
  unfold usedMask
  split
  case h_5 => rfl
  all_goals omega

/-- The bits of `v` that the hardware reads (R60). -/
def usedV (op : BitVec 4) : BitVec 2 := if op = 3 then BitVec.allOnes 2 else 0

/-- The bits of `imm` that the hardware reads (R60). -/
def usedImm (op : BitVec 4) : Word :=
  if op = 1 then 0xFF else if 2 ≤ op.toNat ∧ op.toNat ≤ 4 then BitVec.allOnes 32 else 0

/-- The masks of R60, field by field. -/
theorem usedMask_eq (op : BitVec 4) : usedMask op = packWord 0xF (usedV op) 0 (usedImm op) := by
  revert op
  decide

theorem and_usedMask (op : BitVec 4) (w : CmdWord) : w &&& usedMask op =
    packWord (opField w) (w.extractLsb' 34 2 &&& usedV op) 0 (immField w &&& usedImm op) := by
  have hop : opField w &&& 0xF = opField w := BitVec.and_allOnes
  conv_lhs => rw [usedMask_eq, ← packWord_fields w, packWord_and_packWord, hop,
    show rsvField w &&& 0 = 0 from BitVec.and_zero]

theorem opField_and_usedMask (op : BitVec 4) (w : CmdWord) : opField (w &&& usedMask op) = opField w := by
  rw [and_usedMask, opField_packWord]

/-- The encoder gives back of a decoded word exactly the bits that the hardware reads. -/
theorem encode_decode (h : (opField w).toNat ≤ 6) : encode (decode w) = w &&& usedMask (opField w) := by
  rw [and_usedMask]
  obtain hop | hop | hop | hop | hop | hop | hop | hop := opcode_cases (opField w)
  · simp [decode_nop hop, hop, encode, opcode, usedV, usedImm]
  · simp [decode_begin hop, hop, encode, opcode, usedV, usedImm, setWidth_immByte_zero]
  · simp [decode_setwave hop, hop, encode, opcode, usedV, usedImm, packBytes_immBytes, -BitVec.reduceAllOnes]
  · simp only [decode_settw hop, encode, vField_ofNat, hop]
    exact congrArg₂ (packWord 3 · 0 ·) BitVec.and_allOnes.symm BitVec.and_allOnes.symm
  · simp [decode_setvol hop, hop, encode, opcode, usedV, usedImm, packBytes_immBytes, -BitVec.reduceAllOnes]
  · simp [decode_suspend hop, hop, encode, opcode, usedV, usedImm]
  · simp [decode_resume hop, hop, encode, opcode, usedV, usedImm]
  · omega

theorem and_not_eq_zero_iff {n : Nat} (x m : BitVec n) : x &&& ~~~ m = 0 ↔ x &&& m = x := by
  simp only [BitVec.eq_of_getLsbD_eq_iff, BitVec.getLsbD_and, BitVec.getLsbD_not]
  refine forall₂_congr fun i hi => ?_
  cases x.getLsbD i <;> cases m.getLsbD i <;> simp [hi]

theorem canonical_iff : CmdWord.canonical w = true ↔ (opField w).toNat ≤ 6 ∧ w &&& usedMask (opField w) = w := by
  simp only [CmdWord.canonical, Bool.and_eq_true, decide_eq_true_eq, beq_iff_eq, and_not_eq_zero_iff]

theorem canonical_encode (i : Instr) : CmdWord.canonical (encode i) = true := by
  have h : (opField (encode i)).toNat ≤ 6 := opField_encode i ▸ opcode_le_six i
  exact canonical_iff.mpr ⟨h, by rw [← encode_decode h, decode_encode]⟩

theorem decode_congr (h : w &&& usedMask (opField w) = w' &&& usedMask (opField w)) : decode w' = decode w := by
  have hop : opField w' = opField w := by
    rw [← opField_and_usedMask (opField w) w', ← h, opField_and_usedMask]
  by_cases h6 : (opField w).toNat ≤ 6
  · calc decode w' = decode (encode (decode w')) := (decode_encode _).symm
      _ = decode (encode (decode w)) := by rw [encode_decode (hop ▸ h6), encode_decode h6, hop, h]
      _ = decode w := decode_encode _
  · rw [decode_reserved (w := w) (by omega), decode_reserved (w := w') (by rw [hop]; omega)]

/-- The bits not read (R60). -/
theorem usedMask_getLsbD_eq_false_iff (op : BitVec 4) (i : Fin 40) :
    (usedMask op).getLsbD i = false ↔
      (i.val = 32 ∨ i.val = 33) ∨ ((i.val = 34 ∨ i.val = 35) ∧ op ≠ 3) ∨ (8 ≤ i.val ∧ i.val ≤ 31 ∧ op = 1) ∨
        (i.val ≤ 31 ∧ (op = 0 ∨ op = 5 ∨ op = 6 ∨ 7 ≤ op.toNat)) := by
  revert i
  by_cases hres : 7 ≤ op.toNat
  · have h1 : op ≠ 1 := by bv_omega
    have h3 : op ≠ 3 := by bv_omega
    simp only [usedMask_reserved hres, h1, h3, hres, or_true, ne_eq, not_false_iff, and_true]
    decide
  · obtain rfl | rfl | rfl | rfl | rfl | rfl | rfl | hop := opcode_cases op
    case inr.inr.inr.inr.inr.inr.inr => exact absurd hop hres
    all_goals decide

end Codec

/-- Settles O1: command by command, from the fields of its packed word. -/
theorem decodeOfEncodeIsTheCommand : Obligations.DecodeOfEncodeIsTheCommand := decode_encode

/-- Settles O2: re-encoding keeps the bits that the hardware reads, and a canonical word has no others. -/
theorem canonicalWordIsReencoded : Obligations.CanonicalWordIsReencoded := by
  intro w hw
  obtain ⟨hop, hbits⟩ := canonical_iff.mp hw
  rw [encode_decode hop, hbits]

/-- Settles O4: each word is evaluated. -/
theorem workedWordsDecode : Obligations.WorkedWordsDecode := by
  unfold Obligations.WorkedWordsDecode
  decide

end Sys2Proof

namespace Sys2Proof.Machine

/-! ### Acceptance of a word -/

section Acceptance

variable {s t : State} {w : CmdWord}

theorem acceptEvent_ready (hw : s.cmdPort = some w) (h : cmdReady s = true) :
    acceptEvent s = exec (decode w) { s with cmdPort := none } := by
  have htake : takeWord s = { s with cmdPort := none } := if_pos h
  rw [acceptEvent, hw, htake]

theorem acceptEvent_busy (hw : s.cmdPort = some w) (h : cmdReady s = false) :
    acceptEvent s = exec (decode w) s := by
  rw [acceptEvent, hw, takeWord_waits h]

/-- No command drives HOST's pins. -/
theorem effect_cmdPort (i : Instr) (s : State) : (effect i s).cmdPort = s.cmdPort := by
  cases i with
  | nop => rfl
  | begin m => obtain ⟨-, h⟩ | ⟨-, h⟩ := effect_begin_cases m s <;> simp [h]
  | setwave b0 b1 b2 b3 => rfl
  | settw v x => rfl
  | setvol b0 b1 b2 b3 => rfl
  | suspend => obtain ⟨-, h⟩ | ⟨-, h⟩ := effect_suspend_cases s <;> simp [h]
  | resume => obtain ⟨-, h⟩ | ⟨-, h⟩ := effect_resume_cases s <;> simp [h]

/-- The host's number of a 40-bit word is that word. -/
theorem wordOfBits_toNat (w : CmdWord) : wordOfBits 40 w.toNat = w := by
  rw [wordOfBits, Nat.mod_eq_of_lt w.isLt, BitVec.ofNat_toNat, BitVec.setWidth_eq]

/-- The step that accepts a word from a ready port. -/
theorem step_accept_ready {es : List Event} (ha : s.agenda = .accept :: es) (hw : s.cmdPort = some w)
    (h : cmdReady s = true) : step s = exec (decode w) { s with agenda := es, cmdPort := none } :=
  (step_of_agenda_cons ha).trans (acceptEvent_ready (s := setAgenda es s) hw h)

end Acceptance

/-- Settles O5: the step is the ACCEPT event on the state without that event, and ACCEPT hands the presented word's
command to `exec`. -/
theorem stepRunsTheDecodedCommand : Obligations.StepRunsTheDecodedCommand := by
  refine ⟨fun s w es ha hw => ⟨step_accept_ready ha hw, fun h => ?_⟩, fun s w h => ?_⟩
  · exact (step_of_agenda_cons ha).trans (acceptEvent_busy (s := setAgenda es s) hw h)
  · rw [State.withFetchWord, wordOfBits_toNat]
    exact step_accept_ready (offerWord_agenda s w) (offerWord_cmdPort s w) h

/-- Settles O19: a busy port makes `exec` and ACCEPT wait; an accepted word has left the port before its command's
effect, which does not touch the port. -/
theorem commandsWaitWhileThePortIsBusy : Obligations.CommandsWaitWhileThePortIsBusy := by
  refine ⟨fun i s h => exec_waits i h, fun s h => ?_, fun s t w h hw ht => ?_⟩
  · exact acceptEvent_disabled (by simp [enabled, h])
  · have hexec : exec (decode w) { s with cmdPort := none } = .next t := (acceptEvent_ready hw h).symm.trans ht
    have hready : cmdReady { s with cmdPort := none } = true := h
    rw [eq_effect_of_exec hready hexec, effect_cmdPort]

/-! ### The assembler -/

section Assembler

variable {rate f : Freq}

theorem cast_toNat_ofInt (n : Nat) (a : Int) : ((BitVec.ofInt n a).toNat : Int) = a % 2 ^ n := by
  have hpos : (0 : Int) ≤ a % 2 ^ n := Int.emod_nonneg _ (by positivity)
  simpa [BitVec.toNat_ofInt] using hpos

theorem voiceArg_val (v : Voice) : voiceArg (v.val : Int) = .ok v :=
  dif_pos (by omega)

theorem voiceArg_outside {v : Int} (h : v < 0 ∨ 3 < v) : voiceArg v = .error .voiceOutOfRange :=
  dif_neg (by omega)

/-- A voice argument is a voice's index, or it is refused. -/
theorem voiceArg_cases (v : Int) :
    (voiceArgOk v = true ∧ ∃ i, voiceArg v = .ok i) ∨
      (voiceArgOk v = false ∧ voiceArg v = .error .voiceOutOfRange) := by
  by_cases h : 0 ≤ v ∧ v ≤ 3
  · exact .inl ⟨decide_eq_true h, _, dif_pos h⟩
  · exact .inr ⟨decide_eq_false h, dif_neg h⟩

theorem freqArg_negative (rate : Freq) (hden : f.den ≠ 0) (hnum : f.num < 0) :
    freqArg rate f = .error .negativeFrequency := by
  rw [freqArg, if_neg hden, if_pos hnum]

theorem freqArg_wellFormed (rate : Freq) (h : f.wellFormed = true) : freqArg rate f = .ok (tuningWord rate f) := by
  obtain ⟨hnum, hden⟩ : 0 ≤ f.num ∧ f.den ≠ 0 := by simpa [Freq.wellFormed] using h
  rw [freqArg, if_neg hden, if_neg (by omega)]

theorem freqArg_illFormed (rate : Freq) (h : f.wellFormed = false) : ∃ e, freqArg rate f = .error e := by
  by_cases hden : f.den = 0
  · exact ⟨_, if_pos hden⟩
  · have hnum : f.num < 0 := by simpa [Freq.wellFormed, hden] using h
    exact ⟨_, freqArg_negative rate hden hnum⟩

/-- The assembler accepts exactly the well-formed lines (R57, R64). -/
theorem assemble_accepts_iff (rate : Freq) (l : AsmLine) : (∃ i, assemble rate l = .ok i) ↔ l.wellFormed = true := by
  cases l with
  | settw v t =>
    obtain ⟨hv, i, hi⟩ | ⟨hv, hi⟩ := voiceArg_cases v <;> simp [assemble, AsmLine.wellFormed, hv, hi, Except.map]
  | setfreq v f =>
    cases hf : f.wellFormed with
    | false =>
      obtain ⟨e, he⟩ := freqArg_illFormed rate hf
      simp [assemble, AsmLine.wellFormed, hf, he, Except.bind]
    | true =>
      obtain ⟨hv, i, hi⟩ | ⟨hv, hi⟩ := voiceArg_cases v <;>
        simp [assemble, AsmLine.wellFormed, hf, freqArg_wellFormed rate hf, hv, hi, Except.bind, Except.map]
  | nop | begin m | setwave k0 k1 k2 k3 | setvol a0 a1 a2 a3 | suspend | resume =>
    simp [assemble, AsmLine.wellFormed]

theorem kindArgByte_code (n : Int) : ((kindArgByte (.code n)).toNat : Int) = if n = 1 ∨ n = 2 then n else 0 := by
  by_cases h1 : n = 1
  · simp [kindArgByte, h1]
  · by_cases h2 : n = 2 <;> simp [kindArgByte, h1, h2]

/-- Kinds and modes have the same numbers. -/
theorem modeArgByte_code (n : Int) : modeArgByte (some (.code n)) = kindArgByte (.code n) := rfl

/-- The word of a line is the encoding of its command. -/
theorem assembleWord_canonical {l : AsmLine} {w : CmdWord} (h : assembleWord rate l = .ok w) :
    CmdWord.canonical w = true := by
  cases hl : assemble rate l with
  | error e => simp [assembleWord, hl, Except.map] at h
  | ok i =>
    have hw : encode i = w := by simpa [assembleWord, hl, Except.map] using h
    exact hw ▸ canonical_encode i

end Assembler

/-- Settles O53: the bytes and words are residues, a line is refused only for its voice or its frequency, and the
expansions are the assembler's own equations. -/
theorem assemblerReducesItsArguments : Obligations.AssemblerReducesItsArguments := by
  refine ⟨cast_toNat_ofInt 8, cast_toNat_ofInt 32, ⟨rfl, rfl, rfl⟩, kindArgByte_code, ⟨rfl, rfl, rfl, rfl⟩, fun n => ?_,
    assemble_accepts_iff, fun _ _ => rfl, fun _ _ _ _ _ => rfl, fun _ _ _ _ _ => rfl, fun rate v t h => ?_, ?_⟩
  · rw [modeArgByte_code, kindArgByte_code]
  · rw [assemble, voiceArg_outside h]; rfl
  · rintro rate v t i rfl
    rw [assemble, voiceArg_val]; rfl

/-! ### The disassembler -/

section Disassembler

/-- The command with its kind and mode bytes replaced by the codes that the hardware stores (R55, R56): what is left of
a command that is printed and assembled again. -/
def normalised : Instr → Instr
  | .begin m => .begin (modeArgByte (some (modeArgOf m)))
  | .setwave b0 b1 b2 b3 => .setwave (kindArgByte (kindArgOf b0)) (kindArgByte (kindArgOf b1))
      (kindArgByte (kindArgOf b2)) (kindArgByte (kindArgOf b3))
  | .nop => .nop
  | .settw v t => .settw v t
  | .setvol b0 b1 b2 b3 => .setvol b0 b1 b2 b3
  | .suspend => .suspend
  | .resume => .resume

theorem ampArgByte_toNat (b : Byte) : ampArgByte (b.toNat : Int) = b := by
  rw [ampArgByte, BitVec.ofInt_natCast, BitVec.ofNat_toNat, BitVec.setWidth_eq]

theorem twArgWord_toNat (t : Word) : twArgWord (t.toNat : Int) = t := by
  rw [twArgWord, BitVec.ofInt_natCast, BitVec.ofNat_toNat, BitVec.setWidth_eq]

theorem assemble_disassemble (rate : Freq) (i : Instr) : assemble rate (disassemble i) = .ok (normalised i) := by
  cases i with
  | settw v t => simp [disassemble, assemble, normalised, voiceArg_val, twArgWord_toNat, Except.map]
  | setvol b0 b1 b2 b3 => simp [disassemble, assemble, normalised, ampArgByte_toNat]
  | nop => rfl
  | begin m => rfl
  | setwave b0 b1 b2 b3 => rfl
  | suspend => rfl
  | resume => rfl

theorem normKind_kindArgByte (b : Byte) : normKind (kindArgByte (kindArgOf b)) = normKind b := by
  unfold kindArgOf
  split_ifs with h1 h2
  · rw [h1]; rfl
  · rw [h2]; rfl
  · exact ((if_neg h1).trans (if_neg h2)).symm

/-- Kinds and modes are printed and read with the same codes. -/
theorem modeArgByte_modeArgOf (b : Byte) : modeArgByte (some (modeArgOf b)) = kindArgByte (kindArgOf b) := by
  unfold modeArgOf kindArgOf
  split_ifs <;> rfl

theorem normMode_modeArgByte (b : Byte) : normMode (modeArgByte (some (modeArgOf b))) = normMode b := by
  rw [modeArgByte_modeArgOf]
  exact normKind_kindArgByte b

/-- The hardware normalises the bytes itself, so the normalised command has the effect of the command. -/
theorem effect_normalised (i : Instr) : effect (normalised i) = effect i := by
  cases i with
  | begin m => funext s; simp only [normalised, effect, startUp, normMode_modeArgByte]
  | setwave b0 b1 b2 b3 => funext s; simp only [normalised, effect, kindOperand, normKind_kindArgByte]
  | nop => rfl
  | settw v t => rfl
  | setvol b0 b1 b2 b3 => rfl
  | suspend => rfl
  | resume => rfl

end Disassembler

/-- Settles O57: the command that comes back is the normalised one, whose effect is the same. -/
theorem disassemblyKeepsTheEffect : Obligations.DisassemblyKeepsTheEffect := fun rate i =>
  ⟨normalised i, assemble_disassemble rate i, fun s => by
    rw [exec_eq_acceptCommand, exec_eq_acceptCommand, effect_normalised]⟩

/-- Settles O3: words that agree on the bits read are encoded back to the same word; the encoder's words consist of bits
read, and the assembler's words, those of a disassembly among them, are the encoder's. -/
theorem ignoredBitsDoNotMatter : Obligations.IgnoredBitsDoNotMatter := by
  refine ⟨fun _ _ => decode_congr, usedMask_getLsbD_eq_false_iff, canonical_encode, fun _ _ _ => assembleWord_canonical,
    fun rate w => ?_⟩
  have hw : assembleWord rate (disassemble (decode w)) = .ok (encode (normalised (decode w))) := by
    rw [assembleWord, assemble_disassemble]; rfl
  exact ⟨_, hw, assembleWord_canonical hw⟩

/-! ### Tuning words

The tuning word of a frequency is the exact quotient `f · 2^32 / SAMPLE_RATE` rounded to the nearest integer, ties up,
modulo 2^32; the statements about pitch follow from what rounding does. -/

section Tuning

variable {rate f : Freq}

/-- The number that R64 rounds: `f · 2^32 / SAMPLE_RATE`, exactly. -/
def exactTuning (rate f : Freq) : ℚ := hertz f * 2 ^ 32 / hertz rate

theorem isRate_iff : rate.isRate = true ↔ 0 < rate.num ∧ rate.den ≠ 0 := by
  simp [Freq.isRate]

theorem wellFormed_iff : f.wellFormed = true ↔ 0 ≤ f.num ∧ f.den ≠ 0 := by
  simp [Freq.wellFormed]

theorem hertz_pos (h : rate.isRate = true) : 0 < hertz rate := by
  obtain ⟨hnum, hden⟩ := isRate_iff.mp h
  unfold hertz
  positivity

theorem hertz_nonneg (h : f.wellFormed = true) : 0 ≤ hertz f := by
  obtain ⟨hnum, hden⟩ := wellFormed_iff.mp h
  unfold hertz
  positivity

/-- The model's integer division is the rounding of the exact quotient. -/
theorem tuningWord_eq_round (hr : rate.isRate = true) (hf : f.wellFormed = true) :
    tuningWord rate f = BitVec.ofInt 32 (round (exactTuning rate f)) := by
  obtain ⟨hrnum, hrden⟩ := isRate_iff.mp hr
  obtain ⟨-, hfden⟩ := wellFormed_iff.mp hf
  have hq : exactTuning rate f + 1 / 2 =
      ((2 * f.num * rate.den * 2 ^ 32 + f.den * rate.num : Int) : ℚ) / ((2 * f.den * rate.num : Int) : ℚ) := by
    have hrnum' : (rate.num : ℚ) ≠ 0 := by exact_mod_cast hrnum.ne'
    unfold exactTuning hertz
    push_cast
    field_simp
    ring
  rw [tuningWord, round_eq, hq, Int.floor_div_cast_of_nonneg (by positivity), Int.floor_intCast]

theorem exactTuning_add_rate (hr : rate.isRate = true) (hf : f.wellFormed = true) :
    exactTuning rate ⟨f.num * rate.den + rate.num * f.den, f.den * rate.den⟩ =
      exactTuning rate f + (2 ^ 32 : Int) := by
  obtain ⟨hrnum, hrden⟩ := isRate_iff.mp hr
  obtain ⟨-, hfden⟩ := wellFormed_iff.mp hf
  have hrnum' : (rate.num : ℚ) ≠ 0 := by exact_mod_cast hrnum.ne'
  unfold exactTuning hertz
  push_cast
  field_simp
  ring

/-- Up to Nyquist the rounded quotient is the tuning word itself, and 2^31 at most. -/
theorem round_exactTuning_mem (hr : rate.isRate = true) (hf : f.wellFormed = true) (hny : 2 * hertz f ≤ hertz rate) :
    0 ≤ round (exactTuning rate f) ∧ round (exactTuning rate f) ≤ 2 ^ 31 := by
  have hpos := hertz_pos hr
  have hlo : 0 ≤ exactTuning rate f := div_nonneg (mul_nonneg (hertz_nonneg hf) (by norm_num)) hpos.le
  have hhi : exactTuning rate f ≤ 2 ^ 31 := by
    rw [exactTuning, div_le_iff₀ hpos]
    linarith
  rw [round_eq]
  refine ⟨Int.floor_nonneg.mpr (by linarith), Int.lt_add_one_iff.mp (Int.floor_lt.mpr ?_)⟩
  push_cast
  linarith

/-- The pitch of a tuning word of 2^31 at most is not aliased; at 2^31 the two forms agree. -/
theorem toneHz_of_le (rate : ℚ) {t : Word} (h : t.toNat ≤ 2 ^ 31) :
    toneHz rate t = (t.toNat : ℚ) * rate / 2 ^ 32 := by
  unfold toneHz
  split
  · rfl
  · have ht : t.toNat = 2 ^ 31 := by omega
    rw [ht]
    norm_num

/-- Up to Nyquist the pitch of the tuning word is the rounded quotient in resolution steps. -/
theorem toneHz_tuningWord (hr : rate.isRate = true) (hf : f.wellFormed = true) (hny : 2 * hertz f ≤ hertz rate) :
    toneHz (hertz rate) (tuningWord rate f) = (round (exactTuning rate f) : ℚ) * frequencyResolution (hertz rate) := by
  obtain ⟨hlo, hhi⟩ := round_exactTuning_mem hr hf hny
  have hword : ((tuningWord rate f).toNat : Int) = round (exactTuning rate f) := by
    rw [tuningWord_eq_round hr hf, cast_toNat_ofInt, Int.emod_eq_of_lt hlo (by omega)]
  have hcast : ((tuningWord rate f).toNat : ℚ) = round (exactTuning rate f) := by rw [← hword, Int.cast_natCast]
  rw [toneHz_of_le _ (by omega), hcast, frequencyResolution, mul_div_assoc]

theorem hertz_eq (hr : rate.isRate = true) : hertz f = exactTuning rate f * frequencyResolution (hertz rate) := by
  have hne := (hertz_pos hr).ne'
  unfold exactTuning frequencyResolution
  field_simp

end Tuning

/-- Settles O54: the tuning word is the rounded quotient, over the rationals and so over the reals; the assembler's
SETFREQ is its two argument checks. -/
theorem tuningWordIsTheRoundedQuotient : Obligations.TuningWordIsTheRoundedQuotient := by
  refine ⟨fun rate f hr hf => ?_, fun rate f t => ?_, fun rate f v hden hnum => ?_, fun rate f v hf => ?_⟩
  · have hreal : ((f.num : ℝ) / (f.den : ℝ)) * 2 ^ 32 / ((rate.num : ℝ) / (rate.den : ℝ)) + 1 / 2 =
        ((exactTuning rate f + 1 / 2 : ℚ) : ℝ) := by
      unfold exactTuning hertz
      push_cast
      rfl
    rw [tuningWord_eq_round hr hf, cast_toNat_ofInt, hreal, Rat.floor_cast, round_eq]
  · simp [tuningWordConforms, or_assoc]
  · rw [assemble, freqArg_negative rate hden hnum]; rfl
  · rw [assemble, freqArg_wellFormed rate hf, voiceArg_val]; rfl

/-- Settles O55: the exact quotient grows by 2^32, which is 0 in a tuning word. -/
theorem frequencyWrapsAtTheSampleRate : Obligations.FrequencyWrapsAtTheSampleRate := by
  intro rate f hr hf
  obtain ⟨hrnum, hrden⟩ := isRate_iff.mp hr
  obtain ⟨hfnum, hfden⟩ := wellFormed_iff.mp hf
  have hf' : Freq.wellFormed ⟨f.num * rate.den + rate.num * f.den, f.den * rate.den⟩ = true :=
    wellFormed_iff.mpr ⟨by positivity, by positivity⟩
  have hwrap : BitVec.ofInt 32 (2 ^ 32) = 0 := by decide
  rw [tuningWord_eq_round hr hf', exactTuning_add_rate hr hf, round_add_intCast, BitVec.ofInt_add, hwrap,
    tuningWord_eq_round hr hf]
  exact BitVec.add_zero _

/-- Settles O59: pitch and frequency are the rounded and the exact quotient in resolution steps, and rounding moves a
number by half a unit at most. -/
theorem toneIsWithinHalfAResolutionStep : Obligations.ToneIsWithinHalfAResolutionStep := by
  intro rate f hr hf hny
  have hres : 0 ≤ frequencyResolution (hertz rate) := div_nonneg (hertz_pos hr).le (by norm_num)
  calc |toneHz (hertz rate) (tuningWord rate f) - hertz f|
      = |exactTuning rate f - round (exactTuning rate f)| * frequencyResolution (hertz rate) := by
        rw [toneHz_tuningWord hr hf hny, hertz_eq (f := f) hr, ← sub_mul, abs_mul, abs_of_nonneg hres, abs_sub_comm]
    _ ≤ 1 / 2 * frequencyResolution (hertz rate) := mul_le_mul_of_nonneg_right (abs_sub_round _) hres
    _ = frequencyResolution (hertz rate) / 2 := by ring

end Sys2Proof.Machine
end

section
/-!
PROOFS. The Oscillator Bank of 40_oscillator_bank.md: what SETTW, SETWAVE, SETVOL and COMMIT write (O11, O12, O13, O21),
the four COMMITs that complete a command in any order (O39, O40), and the voice that runs backwards (O58).
-/

namespace Sys2Proof.Machine

/-! ### The pending writes -/

section Pending

variable {s t : State} {f : PendField} {i : Voice}

theorem exec_ready (c : Instr) (h : cmdReady s = true) : exec c s = .next (effect c s) := by
  rw [exec_eq_acceptCommand, acceptCommand_ready h]

theorem commitEvent_kind_pending {k : KindCode} (h : s.pendKind.get i = some k) :
    commitEvent .kind i s = { s with kind := s.kind.set i k, pendKind := s.pendKind.set i none } := by
  rw [commitEvent, h]; rfl

theorem commitEvent_amp_pending {a : Byte} (h : s.pendAmp.get i = some a) :
    commitEvent .amp i s = { s with amp := s.amp.set i a, pendAmp := s.pendAmp.set i none } := by
  rw [commitEvent, h]; rfl

@[simp] theorem commitEvent_kind_pendKind (i : Voice) (s : State) :
    (commitEvent .kind i s).pendKind = s.pendKind.set i none := by
  obtain ⟨k, -, he⟩ | ⟨hnone, he⟩ := commitEvent_kind_cases i s
  · rw [he]
  · rw [he, ← hnone, Quad.set_get]

@[simp] theorem commitEvent_amp_pendAmp (i : Voice) (s : State) :
    (commitEvent .amp i s).pendAmp = s.pendAmp.set i none := by
  obtain ⟨a, -, he⟩ | ⟨hnone, he⟩ := commitEvent_amp_cases i s
  · rw [he]
  · rw [he, ← hnone, Quad.set_get]

@[simp] theorem commitEvent_kind_pendAmp (i : Voice) (s : State) : (commitEvent .kind i s).pendAmp = s.pendAmp := by
  obtain ⟨k, -, he⟩ | ⟨-, he⟩ := commitEvent_kind_cases i s <;> rw [he]

@[simp] theorem commitEvent_amp_pendKind (i : Voice) (s : State) : (commitEvent .amp i s).pendKind = s.pendKind := by
  obtain ⟨a, -, he⟩ | ⟨-, he⟩ := commitEvent_amp_cases i s <;> rw [he]

/-- The entry (f, i) is pending exactly when COMMIT(f, i) is enabled, so this says which entry a COMMIT removes. -/
theorem enabled_commit_commitEvent (f g : PendField) (i j : Voice) (s : State) :
    enabled (.commit f i) (commitEvent g j s) = true ↔ enabled (.commit f i) s = true ∧ ¬(f = g ∧ i = j) := by
  cases f with
  | kind =>
    cases g with
    | kind => by_cases hij : i = j <;> simp [enabled, Quad.get_set, hij]
    | amp => simp [enabled]
  | amp =>
    cases g with
    | kind => simp [enabled]
    | amp => by_cases hij : i = j <;> simp [enabled, Quad.get_set, hij]

theorem pendEmpty_of_commits_disabled (h : ∀ f i, enabled (.commit f i) s = false) : pendEmpty s = true := by
  by_contra hne
  obtain ⟨f, i, hen⟩ := exists_commit_enabled (Bool.eq_false_iff.mpr hne)
  simp [h f i] at hen

theorem pendingCount_of_pendEmpty (h : pendEmpty s = true) : pendingCount s = 0 := by
  obtain ⟨hk, ha⟩ := pendEmpty_iff.mp h
  simp [pendingCount, hk, ha]

theorem pendEmpty_iff_pendingCount : pendEmpty s = true ↔ pendingCount s = 0 := by
  refine ⟨pendingCount_of_pendEmpty, fun hzero => pendEmpty_of_commits_disabled fun f i => ?_⟩
  refine Bool.eq_false_iff.mpr fun hen => ?_
  have hless := pendingCount_commitEvent f i hen
  omega

theorem cmdReady_iff_pendingCount (h : s.ramping = false) : cmdReady s = true ↔ pendingCount s = 0 := by
  simp [cmdReady_iff, h, pendEmpty_iff_pendingCount]

theorem cmdReady_eq_false_of_pendingCount (h : pendingCount s ≠ 0) : cmdReady s = false :=
  Bool.eq_false_iff.mpr fun hready => h (pendingCount_of_pendEmpty (pendEmpty_of_cmdReady hready))

theorem pendingCount_queueKinds (h : pendEmpty s = true) (k : Quad KindCode) : pendingCount (queueKinds s k) = 4 := by
  simp [pendingCount, (pendEmpty_iff.mp h).2]

theorem pendingCount_queueAmps (h : pendEmpty s = true) (a : Quad Byte) : pendingCount (queueAmps s a) = 4 := by
  simp [pendingCount, (pendEmpty_iff.mp h).1]

end Pending

/-- Settles O11: the accepted SETTW is one write of `tw`, which `cmd_ready` does not depend on. -/
theorem settwWritesOneTuningWord : Obligations.SettwWritesOneTuningWord := fun s v t hready =>
  ⟨writeTw s v t, exec_ready (.settw v t) hready, Quad.get_set_self s.tw v t,
    fun _ hj => Quad.get_set_of_ne s.tw t hj, rfl, hready⟩

/-- Settles O12: the accepted SETWAVE fills `pendKind`, and the four entries keep the port from being ready. -/
theorem setwaveQueuesFourKinds : Obligations.SetwaveQueuesFourKinds := by
  intro s b0 b1 b2 b3 hready
  have hcount := pendingCount_queueKinds (pendEmpty_of_cmdReady hready) (kindOperand b0 b1 b2 b3)
  have hbusy : cmdReady (queueKinds s (kindOperand b0 b1 b2 b3)) = false := cmdReady_eq_false_of_pendingCount (by omega)
  refine ⟨_, exec_ready (.setwave b0 b1 b2 b3) hready, ?_, ?_, ?_, ?_, rfl, hbusy⟩
  all_goals exact congrArg some (normKind_eq_fallbackCode _)

/-- Settles O13: the accepted SETVOL fills `pendAmp`, and the four entries keep the port from being ready. -/
theorem setvolQueuesFourAmplitudes : Obligations.SetvolQueuesFourAmplitudes := by
  intro s b0 b1 b2 b3 hready
  have hcount := pendingCount_queueAmps (pendEmpty_of_cmdReady hready) (ampOperand b0 b1 b2 b3)
  have hbusy : cmdReady (queueAmps s (ampOperand b0 b1 b2 b3)) = false := cmdReady_eq_false_of_pendingCount (by omega)
  exact ⟨_, exec_ready (.setvol b0 b1 b2 b3) hready, rfl, rfl, rfl, rfl, rfl, hbusy⟩

/-- Settles O21: each field of the state after the COMMIT is the old one, or the old one with voice `i` set. -/
theorem commitPerformsOneWrite : Obligations.CommitPerformsOneWrite := by
  refine ⟨fun s i k hk => ⟨_, congrArg Host.Outcome.next (commitEvent_kind_pending hk), ?_⟩,
    fun s i a ha => ⟨_, congrArg Host.Outcome.next (commitEvent_amp_pending ha), ?_⟩⟩
  · exact ⟨Quad.get_set_self _ i k, Quad.get_set_self _ i none,
      fun j hj => ⟨Quad.get_set_of_ne _ k hj, Quad.get_set_of_ne _ none hj⟩, rfl⟩
  · exact ⟨Quad.get_set_self _ i a, Quad.get_set_self _ i none,
      fun j hj => ⟨Quad.get_set_of_ne _ a hj, Quad.get_set_of_ne _ none hj⟩, rfl⟩

/-! ### The COMMITs after a command -/

section Commits

variable {rom : RomTable} {e : Event} {es : List Event} {s t u : State} {f : PendField} {i : Voice}

/-- A quiet event other than a COMMIT neither queues nor drops a write, and starts no ramp. -/
theorem IsQuiet.pending_cases (hq : IsQuiet e) (h : runEventWith rom e s = .next t) :
    (∃ f i, e = .commit f i ∧ t = commitEvent f i s) ∨
      ((∀ f i, e ≠ .commit f i) ∧ t.pendKind = s.pendKind ∧ t.pendAmp = s.pendAmp ∧
        (s.ramping = false → t.ramping = false)) := by
  cases e with
  | present w => cases h; exact .inr ⟨nofun, rfl, rfl, id⟩
  | withdraw => cases h; exact .inr ⟨nofun, rfl, rfl, id⟩
  | accept => exact absurd rfl hq.1
  | commit f i => exact .inl ⟨f, i, rfl, (Host.Outcome.next.inj h).symm⟩
  | tick =>
    obtain rfl : tickEvent rom s = t := Host.Outcome.next.inj h
    obtain ⟨-, he⟩ | ⟨-, he⟩ := tickEvent_cases rom s <;> rw [he] <;> exact .inr ⟨nofun, rfl, rfl, id⟩
  | rstep =>
    obtain rfl : rstepEvent s = t := Host.Outcome.next.inj h
    obtain ⟨-, -, he⟩ | ⟨-, he⟩ := rstepEvent_cases s <;> rw [he] <;> exact .inr ⟨nofun, rfl, rfl, id⟩
  | rdone =>
    obtain rfl : rdoneEvent s = t := Host.Outcome.next.inj h
    obtain ⟨-, -, he⟩ | ⟨-, he⟩ := rdoneEvent_cases s <;> rw [he]
    · exact .inr ⟨nofun, rfl, rfl, fun _ => rfl⟩
    · exact .inr ⟨nofun, rfl, rfl, id⟩
  | reset => exact absurd rfl hq.2

theorem IsQuiet.not_ramping (hq : IsQuiet e) (h : runEventWith rom e s = .next t) (hs : s.ramping = false) :
    t.ramping = false := by
  obtain ⟨f, i, -, rfl⟩ | ⟨-, -, -, hramp⟩ := hq.pending_cases h
  · rw [(commitEvent_ramp f i s).1, hs]
  · exact hramp hs

theorem not_ramping_of_quiet_run (hq : ∀ e ∈ es, IsQuiet e) (h : runEventsWith rom es s = .next t)
    (hs : s.ramping = false) : t.ramping = false :=
  runEventsWith_keeps (P := fun x => x.ramping = false) (fun e he _ _ => (hq e he).not_ramping) h hs

/-- No quiet event queues a write. -/
theorem IsQuiet.commit_disabled (hq : IsQuiet e) (h : runEventWith rom e s = .next t)
    (hs : enabled (.commit f i) s = false) : enabled (.commit f i) t = false := by
  obtain ⟨g, j, -, rfl⟩ | ⟨-, hk, ha, -⟩ := hq.pending_cases h
  · simp [Bool.eq_false_iff, enabled_commit_commitEvent, hs]
  · cases f with
    | kind => rwa [enabled, hk]
    | amp => rwa [enabled, ha]

theorem commit_disabled_of_quiet_run (hq : ∀ e ∈ es, IsQuiet e) (h : runEventsWith rom es s = .next t)
    (hs : enabled (.commit f i) s = false) : enabled (.commit f i) t = false :=
  runEventsWith_keeps (P := fun x => enabled (.commit f i) x = false) (fun e he _ _ => (hq e he).commit_disabled) h hs

/-- After a quiet run in which COMMIT(f, i) happens, the entry (f, i) is not pending. -/
theorem commit_disabled_of_mem (hq : ∀ e ∈ es, IsQuiet e) (h : runEventsWith rom es s = .next t)
    (hmem : .commit f i ∈ es) : enabled (.commit f i) t = false := by
  induction es generalizing s with
  | nil => simp at hmem
  | cons e es ih =>
    obtain ⟨x, hx, -⟩ := runEventWith_agendaFree rom e s
    have hrest : runEventsWith rom es x = .next t := (runEventsWith_cons hx).symm.trans h
    have hq' := (List.forall_mem_cons.mp hq).2
    obtain rfl | hmem' := List.mem_cons.mp hmem
    · obtain rfl : commitEvent f i s = x := Host.Outcome.next.inj hx
      exact commit_disabled_of_quiet_run hq' hrest (by simp [Bool.eq_false_iff, enabled_commit_commitEvent])
    · exact ih hq' hrest hmem'

/-- A quiet run in which every pending write has its COMMIT ends with a ready port and nothing left to settle. -/
theorem ready_after_commits (hq : ∀ e ∈ es, IsQuiet e) (h : runEventsWith rom es s = .next t)
    (hramp : s.ramping = false) (hall : ∀ f i, enabled (.commit f i) s = true → .commit f i ∈ es) :
    cmdReady t = true ∧ configOf t = configOf (settled s) := by
  have hempty : pendEmpty t = true := pendEmpty_of_commits_disabled fun f i => by
    cases hs : enabled (.commit f i) s with
    | true => exact commit_disabled_of_mem hq h (hall f i hs)
    | false => exact commit_disabled_of_quiet_run hq h hs
  refine ⟨cmdReady_iff.mpr ⟨not_ramping_of_quiet_run hq h hramp, hempty⟩, ?_⟩
  rw [← configOf_settled_of_quiet_run hq h, settled_of_pendEmpty hempty]

theorem commitsTaken_cons_commit (rom : RomTable) (f : PendField) (i : Voice) (es : List Event) (s : State) :
    commitsTaken rom (.commit f i :: es) s =
      (if enabled (.commit f i) s then 1 else 0) + commitsTaken rom es (commitEvent f i s) := rfl

theorem commitsTaken_cons_of_ne (hne : ∀ f i, e ≠ .commit f i) (h : runEventWith rom e s = .next t) :
    commitsTaken rom (e :: es) s = commitsTaken rom es t := by
  cases e with
  | commit f i => exact absurd rfl (hne f i)
  | _ => simp [commitsTaken, h]

/-- Along a quiet run every write that is no longer pending has been taken by a COMMIT. -/
theorem commitsTaken_add_pendingCount (hq : ∀ e ∈ es, IsQuiet e) (h : runEventsWith rom es s = .next t) :
    commitsTaken rom es s + pendingCount t = pendingCount s := by
  induction es generalizing s with
  | nil => cases h; exact Nat.zero_add _
  | cons e es ih =>
    obtain ⟨hqe, hq'⟩ := List.forall_mem_cons.mp hq
    obtain ⟨x, hx, -⟩ := runEventWith_agendaFree rom e s
    have hrest := ih hq' ((runEventsWith_cons hx).symm.trans h)
    obtain ⟨f, i, rfl, rfl⟩ | ⟨hne, hk, ha, -⟩ := hqe.pending_cases hx
    · rw [commitsTaken_cons_commit]
      cases hen : enabled (.commit f i) s with
      | true =>
        have hless := pendingCount_commitEvent f i hen
        simp only [if_true]
        omega
      | false =>
        rw [commitEvent_disabled f i hen] at hrest ⊢
        simpa using hrest
    · have hsame : pendingCount x = pendingCount s := by simp only [pendingCount, hk, ha]
      rw [commitsTaken_cons_of_ne hne hx, hrest, hsame]

/-- An accepted SETVOL or SETWAVE has queued four writes and started no ramp. -/
theorem four_pending_of_exec {b : Quad Byte} (hready : cmdReady s = true)
    (h : exec (.setvol b.v0 b.v1 b.v2 b.v3) s = .next u ∨ exec (.setwave b.v0 b.v1 b.v2 b.v3) s = .next u) :
    pendingCount u = 4 ∧ u.ramping = false := by
  have hempty := pendEmpty_of_cmdReady hready
  have hramp := ramping_of_cmdReady hready
  obtain h | h := h
  · obtain rfl := eq_effect_of_exec hready h
    exact ⟨pendingCount_queueAmps hempty _, hramp⟩
  · obtain rfl := eq_effect_of_exec hready h
    exact ⟨pendingCount_queueKinds hempty _, hramp⟩

end Commits

/-- Settles O39: the COMMITs of the field leave nothing pending, so the configuration is the settled one. -/
theorem anyCommitOrderSetsAllVoices : Obligations.AnyCommitOrderSetsAllVoices := by
  intro rom s u b es hready hacc hres
  have hq := isQuiet_of_notMem hacc hres
  have hramp := ramping_of_cmdReady hready
  obtain ⟨hnoKind, hnoAmp⟩ := pendEmpty_iff.mp (pendEmpty_of_cmdReady hready)
  obtain ⟨t, ht⟩ := exists_next_runEventsWith rom es u
  refine ⟨fun hu hmem => ⟨t, ht, ?_⟩, fun hu hmem => ⟨t, ht, ?_⟩⟩
  · obtain rfl := eq_effect_of_exec hready hu
    obtain ⟨htr, hconf⟩ := ready_after_commits hq ht hramp fun f i hen => by
      cases f with
      | kind => simp [effect, enabled, hnoKind] at hen
      | amp => exact hmem i
    obtain ⟨-, -, hamp⟩ := VoiceConfig.mk.inj hconf
    exact ⟨htr, fun i => by simp [hamp, effect, ampOperand]⟩
  · obtain rfl := eq_effect_of_exec hready hu
    obtain ⟨htr, hconf⟩ := ready_after_commits hq ht hramp fun f i hen => by
      cases f with
      | kind => exact hmem i
      | amp => simp [effect, enabled, hnoAmp] at hen
    obtain ⟨-, hkind, -⟩ := VoiceConfig.mk.inj hconf
    exact ⟨htr, fun i => by simp [hkind, effect, kindOperand_get]⟩

/-- Settles O40: four writes are queued, and every one that is gone was taken by a COMMIT. -/
theorem fourCommitsCompleteACommand : Obligations.FourCommitsCompleteACommand := by
  intro rom s u t b es hready hacc hres hu ht
  have hq := isQuiet_of_notMem hacc hres
  obtain ⟨hfour, hramp⟩ := four_pending_of_exec hready hu
  have hsum := commitsTaken_add_pendingCount hq ht
  refine ⟨hfour, hsum.trans hfour, ?_⟩
  rw [cmdReady_iff_pendingCount (not_ramping_of_quiet_run hq ht hramp)]
  omega

/-! ### The tone of a voice -/

section Tone

variable {rom : RomTable} {e : Event} {es : List Event} {s t u : State} {i : Voice} {m n : Nat}

/-- From `s` to the running state `t`, voice `i` keeps its tuning word and its phase advances `n` times. -/
structure ToneAdvances (i : Voice) (n : Nat) (s t : State) : Prop where
  running : t.running = true
  tw : t.tw.get i = s.tw.get i
  ph : t.ph.get i = s.ph.get i + n • s.tw.get i

theorem ToneAdvances.of_ph_eq (hrun : t.running = true) (htw : t.tw.get i = s.tw.get i) (hph : t.ph = s.ph) :
    ToneAdvances i 0 s t :=
  ⟨hrun, htw, by rw [hph, zero_nsmul, add_zero]⟩

theorem ToneAdvances.trans (hst : ToneAdvances i m s t) (htu : ToneAdvances i n t u) : ToneAdvances i (m + n) s u :=
  ⟨htu.running, htu.tw.trans hst.tw, by rw [htu.ph, hst.ph, hst.tw, add_nsmul, add_assoc]⟩

/-- No command moves a phase or stops a running block at once (SUSPEND only starts the ramp, R100), and only SETTW
writes a tuning word. -/
theorem effect_tone_cases (c : Instr) (s : State) :
    (effect c s).ph = s.ph ∧ (s.running = true → (effect c s).running = true) ∧
      ((∃ v x, c = .settw v x) ∨ (effect c s).tw = s.tw) := by
  cases c with
  | nop => exact ⟨rfl, id, .inr rfl⟩
  | begin m => obtain ⟨-, he⟩ | ⟨-, he⟩ := effect_begin_cases m s <;> simp [he]
  | setwave b0 b1 b2 b3 => exact ⟨rfl, id, .inr rfl⟩
  | settw v x => exact ⟨rfl, id, .inl ⟨v, x, rfl⟩⟩
  | setvol b0 b1 b2 b3 => exact ⟨rfl, id, .inr rfl⟩
  | suspend => obtain ⟨-, he⟩ | ⟨-, he⟩ := effect_suspend_cases s <;> simp [he]
  | resume => obtain ⟨-, he⟩ | ⟨-, he⟩ := effect_resume_cases s <;> simp [he]

/-- An ACCEPT that keeps the tone of a voice keeps its tuning word, even where it is a SETTW. -/
theorem effect_tw_of_keepsTone {w : CmdWord} (hk : keepsTone i .accept s = true) (hw : s.cmdPort = some w)
    (hready : cmdReady s = true) : (effect (decode w) { s with cmdPort := none }).tw.get i = s.tw.get i := by
  obtain ⟨-, -, ⟨v, x, hd⟩ | htw⟩ := effect_tone_cases (decode w) { s with cmdPort := none }
  · have hsame : v = i → x = s.tw.get i := by simpa [keepsTone, hw, hd, hready, imp_iff_not_or] using hk
    by_cases hv : i = v
    · subst hv; simp [hd, effect, hsame rfl]
    · simp [hd, effect, Quad.get_set_of_ne _ _ hv]
  · rw [htw]

theorem toneAdvances_accept (hk : keepsTone i .accept s = true) (hs : s.running = true)
    (h : acceptEvent s = .next t) : ToneAdvances i 0 s t := by
  obtain ⟨w, hw, hready, rfl⟩ | rfl := acceptEvent_next_cases h
  · obtain ⟨hph, hrun, -⟩ := effect_tone_cases (decode w) { s with cmdPort := none }
    exact .of_ph_eq (hrun hs) (effect_tw_of_keepsTone hk hw hready) hph
  · exact .of_ph_eq hs rfl rfl

theorem toneAdvances_commit (f : PendField) (j : Voice) (hs : s.running = true) :
    ToneAdvances i 0 s (commitEvent f j s) := by
  cases f with
  | kind => obtain ⟨k, -, he⟩ | ⟨-, he⟩ := commitEvent_kind_cases j s <;> rw [he] <;> exact .of_ph_eq hs rfl rfl
  | amp => obtain ⟨a, -, he⟩ | ⟨-, he⟩ := commitEvent_amp_cases j s <;> rw [he] <;> exact .of_ph_eq hs rfl rfl

/-- A TICK of a running block advances every phase once (R81). -/
theorem toneAdvances_tick (rom : RomTable) (i : Voice) (hs : s.running = true) :
    ToneAdvances i 1 s (tickEvent rom s) := by
  have he : tickEvent rom s = produceSample rom s := if_pos hs
  refine ⟨?_, ?_, ?_⟩ <;> simp [he, hs, advancedPhases, advancePhase]

/-- An event that keeps the tone of a voice of a running block advances its phase if it is a TICK, and not otherwise. -/
theorem toneAdvances_event (hk : keepsTone i e s = true) (hs : s.running = true) (h : runEventWith rom e s = .next t) :
    ToneAdvances i ([e].count .tick) s t := by
  cases e with
  | present w => cases h; exact .of_ph_eq hs rfl rfl
  | withdraw => cases h; exact .of_ph_eq hs rfl rfl
  | accept => exact toneAdvances_accept hk hs h
  | commit f j => exact Host.Outcome.next.inj h ▸ toneAdvances_commit f j hs
  | tick => exact Host.Outcome.next.inj h ▸ toneAdvances_tick rom i hs
  | rstep =>
    obtain rfl : rstepEvent s = t := Host.Outcome.next.inj h
    obtain ⟨-, -, he⟩ | ⟨-, he⟩ := rstepEvent_cases s <;> rw [he] <;> exact .of_ph_eq hs rfl rfl
  | rdone =>
    obtain rfl : rdoneEvent s = t := Host.Outcome.next.inj h
    rw [rdoneEvent_disabled (by simpa [keepsTone] using hk)]
    exact .of_ph_eq hs rfl rfl
  | reset => simp [keepsTone] at hk

theorem toneAdvances_cons (hk : keepsTone i e s = true) (hs : s.running = true) (h : runEventWith rom e s = .next t)
    (htail : t.running = true → ToneAdvances i (es.count .tick) t u) :
    ToneAdvances i ((e :: es).count .tick) s u := by
  have hfirst := toneAdvances_event hk hs h
  have hcount : ([e] ++ es).count .tick = [e].count .tick + es.count .tick := List.count_append
  rw [← List.singleton_append, hcount]
  exact hfirst.trans (htail hfirst.running)

/-- The phase of a voice whose tone is kept advances once for each TICK of the run (R81). -/
theorem toneAdvances_run (hs : s.running = true) (h : alongRun (keepsTone i) rom es s = true) :
    ∃ t, runEventsWith rom es s = .next t ∧ ToneAdvances i (es.count .tick) s t := by
  obtain ⟨t, ht, htone⟩ := alongRun_induct
    (r := fun s es t => s.running = true → ToneAdvances i (es.count .tick) s t)
    (fun _ hs => .of_ph_eq hs rfl rfl) (fun _ _ _ _ _ hk hx ih hs => toneAdvances_cons hk hs hx ih) es s h
  exact ⟨t, ht, htone hs⟩

/-- The pitch of a tuning word is its distance from 0, counted either way round, in resolution steps (R71, R148). -/
theorem toneHz_eq_abs_toInt (rate : ℚ) (t : Word) : toneHz rate t = |(t.toInt : ℚ)| * rate / 2 ^ 32 := by
  have hlt := t.isLt
  rw [toneHz, BitVec.toInt_eq_toNat_cond]
  split
  · next hlow => rw [if_pos (by omega), Int.cast_natCast, abs_of_nonneg (Nat.cast_nonneg _)]
  · next hhigh =>
    have hle : (t.toNat : ℚ) ≤ 2 ^ 32 := by exact_mod_cast hlt.le
    have hcast : (((t.toNat : Int) - (2 ^ 32 : Nat) : Int) : ℚ) = t.toNat - 2 ^ 32 := by push_cast; rfl
    rw [if_neg (by omega), hcast, abs_of_nonpos (sub_nonpos.mpr hle), neg_sub]

theorem abs_toInt_neg (t : Word) : |(-t).toInt| = |t.toInt| := by
  by_cases ht : t = BitVec.intMin 32
  · rw [ht, BitVec.neg_intMin]
  · rw [BitVec.toInt_neg_of_ne_intMin ht, abs_neg]

end Tone

/-- Settles O58: `n` advances by the negative tuning word undo `n` advances by the word; the pitch is the absolute value
of the word as a signed number, which negation keeps. -/
theorem aliasedVoiceRunsBackwards : Obligations.AliasedVoiceRunsBackwards := by
  refine ⟨fun rom es es' s s' i hs hs' hk hk' hneg hcount => ?_, fun rom rate s i hs => ?_, fun rate t _ => ?_⟩
  · obtain ⟨t, ht, tone⟩ := toneAdvances_run hs hk
    obtain ⟨t', ht', tone'⟩ := toneAdvances_run hs' hk'
    have hback : t'.ph.get i = s'.ph.get i - es.count .tick • s.tw.get i := by
      rw [tone'.ph, hneg, hcount, smul_neg, sub_eq_add_neg]
    refine ⟨t, t', ht, ht', fun hend => ?_, fun hstart => ?_⟩
    · rw [hback, hend, tone.ph, add_sub_cancel_right]
    · rw [hback, hstart, tone.ph, add_sub_cancel_left, sub_sub_cancel_left]
  · have hstep : (tickEvent rom s).ph.get i - s.ph.get i = s.tw.get i := by
      rw [(toneAdvances_tick rom i hs).ph, one_nsmul, add_sub_cancel_left]
    exact ⟨tickEvent rom s, rfl, by rw [hstep, toneHz_eq_abs_toInt]⟩
  · rw [toneHz_eq_abs_toInt, toneHz_eq_abs_toInt, ← Int.cast_abs, ← Int.cast_abs, abs_toInt_neg]

end Sys2Proof.Machine
end

section
/-!
PROOFS. The Mixer of 41_mixer.md: the phases along a run (O33) and their period (O34), the scaler (O28), the adder tree
(O29), the level (O30), the datapath that computes it (O32), and the sample that a TICK produces (O22, O35, O36).
-/

namespace Sys2Proof

theorem Quad.sum_eq_univ_sum (q : Quad Int) : q.sum = ∑ i : Voice, q.get i := by
  rw [sum_eq, Fin.sum_univ_four]

end Sys2Proof

namespace Sys2Proof.Machine

/-! ### The phases along a run -/

/-- Adding a tuning word `n` times moves a phase by the product modulo 2^32 (R81). -/
theorem toNat_add_nsmul (p t : Word) (n : Nat) : (p + n • t).toNat = (p.toNat + n * t.toNat) % 2 ^ 32 := by
  rw [BitVec.toNat_add, nsmul_eq_mul, BitVec.toNat_mul, BitVec.natCast_eq_ofNat, BitVec.toNat_ofNat,
    Nat.mod_mul_mod, Nat.add_mod_mod]

/-- A word comes back to itself after exactly the multiples of its repeat period (R88): what is left of the word and of
2^32 without their common divisor is coprime. -/
theorem add_nsmul_eq_self_iff (p t : Word) (n : Nat) : p + n • t = p ↔ repeatPeriod t ∣ n := by
  obtain ⟨t', m', hcop, ht, hm⟩ := Nat.exists_coprime t.toNat (2 ^ 32)
  have hg : 0 < Nat.gcd t.toNat (2 ^ 32) := Nat.gcd_pos_of_pos_right _ (by norm_num)
  have hperiod : repeatPeriod t = m' := Nat.div_eq_of_eq_mul_left hg hm
  calc p + n • t = p
      ↔ n • t = 0 := add_eq_left
    _ ↔ 2 ^ 32 ∣ n * t.toNat := by
        rw [← BitVec.toNat_inj, ← zero_add (n • t), toNat_add_nsmul, Nat.dvd_iff_mod_eq_zero]; simp
    _ ↔ m' * Nat.gcd t.toNat (2 ^ 32) ∣ n * t' * Nat.gcd t.toNat (2 ^ 32) := by rw [← hm, mul_assoc, ← ht]
    _ ↔ m' ∣ n := by rw [Nat.mul_dvd_mul_iff_right hg, hcop.symm.dvd_mul_right]
    _ ↔ repeatPeriod t ∣ n := by rw [hperiod]

/-- Settles O33: along the run the phase advances once for each TICK, by the tuning word the voice keeps. -/
theorem phaseAfterManyTicks : Obligations.PhaseAfterManyTicks := by
  intro rom es s i hs hk
  obtain ⟨t, ht, tone⟩ := toneAdvances_run hs hk
  exact ⟨t, ht, tone.tw, by rw [tone.ph, toNat_add_nsmul]⟩

/-- Settles O34: the phase has advanced once for each TICK, so it is back exactly after multiples of the period. -/
theorem phaseRepeatsWithThePeriod : Obligations.PhaseRepeatsWithThePeriod := by
  intro rom es s i hs hk
  obtain ⟨t, ht, tone⟩ := toneAdvances_run hs hk
  exact ⟨t, ht, by rw [tone.ph, add_nsmul_eq_self_iff]⟩

/-! ### The scaler -/

section Scaler

variable (raw amp : Byte)

/-- The scaler divides by 256 toward minus infinity (R84). -/
theorem scaleSample_eq_ediv : scaleSample raw amp = raw.toInt * (amp.toNat : Int) / 256 := rfl

theorem byte_toInt_mem : -128 ≤ raw.toInt ∧ raw.toInt ≤ 127 :=
  ⟨raw.le_toInt, Int.lt_add_one_iff.mp raw.toInt_lt⟩

theorem byte_toNat_mem : 0 ≤ (amp.toNat : Int) ∧ (amp.toNat : Int) ≤ 255 := by
  have := amp.isLt
  omega

/-- The exact product fits 16 signed bits (R84). -/
theorem product_mem : -32640 ≤ raw.toInt * (amp.toNat : Int) ∧ raw.toInt * (amp.toNat : Int) ≤ 32385 := by
  obtain ⟨hrlo, hrhi⟩ := byte_toInt_mem raw
  obtain ⟨halo, hahi⟩ := byte_toNat_mem amp
  constructor <;> nlinarith

theorem scaleSample_mem : -128 ≤ scaleSample raw amp ∧ scaleSample raw amp ≤ 126 := by
  obtain ⟨hlo, hhi⟩ := product_mem raw amp
  rw [scaleSample_eq_ediv]
  omega

@[simp] theorem scaleSample_amp_zero : scaleSample raw 0 = 0 := by simp [scaleSample_eq_ediv]

@[simp] theorem scaleSample_raw_zero : scaleSample 0 amp = 0 := by simp [scaleSample_eq_ediv]

variable {raw amp}

/-- A negative product rounds to -1 at most. -/
theorem scaleSample_of_neg (hraw : raw.toInt < 0) (hamp : amp ≠ 0) : scaleSample raw amp ≤ -1 := by
  have hpos : 0 < (amp.toNat : Int) := by exact_mod_cast Nat.pos_of_ne_zero fun h => hamp (BitVec.eq_of_toNat_eq h)
  have hneg := mul_neg_of_neg_of_pos hraw hpos
  rw [scaleSample_eq_ediv]
  omega

/-- At full amplitude the product is `256 · raw - raw`, so a positive entry loses one unit. -/
theorem scaleSample_full_of_pos (hraw : 0 < raw.toInt) : scaleSample raw 255 = raw.toInt - 1 := by
  obtain ⟨-, hhi⟩ := byte_toInt_mem raw
  rw [scaleSample_eq_ediv, show ((255 : Byte).toNat : Int) = 255 from rfl]
  omega

/-- At full amplitude the product is `256 · raw - raw`, so an entry that is not positive is kept. -/
theorem scaleSample_full_of_nonpos (hraw : raw.toInt ≤ 0) : scaleSample raw 255 = raw.toInt := by
  obtain ⟨hlo, -⟩ := byte_toInt_mem raw
  rw [scaleSample_eq_ediv, show ((255 : Byte).toNat : Int) = 255 from rfl]
  omega

end Scaler

/-- Settles O28: the floor is that of the arithmetic shift; the ranges and corner cases are the scaler's rules. -/
theorem scalerRoundsTowardMinusInfinity : Obligations.ScalerRoundsTowardMinusInfinity := by
  intro raw amp
  obtain ⟨hplo, hphi⟩ := product_mem raw amp
  obtain ⟨hlo, hhi⟩ := scaleSample_mem raw amp
  have hfloor : scaleSample raw amp = ⌊((raw.toInt * (amp.toNat : Int) : Int) : ℚ) / 256⌋ := by
    rw [scaleSample, asr_eq_floor, Config.scaleShift]
    norm_num
  refine ⟨hplo, hphi, hfloor, hlo, hhi, ?_, ?_, scaleSample_of_neg, ?_, ?_⟩
  · rintro rfl; exact scaleSample_amp_zero raw
  · rintro rfl; exact scaleSample_raw_zero amp
  · rintro rfl; exact scaleSample_full_of_pos
  · rintro rfl; exact scaleSample_full_of_nonpos

/-! ### The adder tree -/

@[simp] theorem advancedPhases_get (s : State) (i : Voice) : (advancedPhases s).get i = s.ph.get i + s.tw.get i :=
  Quad.get_ofFn _ i

/-- The index is the phase divided by 2^24 (R82). -/
theorem phaseIndex_eq_ofNat (ph : Word) : phaseIndex ph = BitVec.ofNat 8 (ph.toNat / 2 ^ 24) := by
  apply BitVec.eq_of_toNat_eq
  rw [phaseIndex, BitVec.extractLsb'_toNat, BitVec.toNat_ofNat, Nat.shiftRight_eq_div_pow]

/-- What the model computes for a voice is its contribution as the claims write it. -/
theorem contribution_eq_voiceScaled (rom : RomTable) (ph : Word) (k : KindCode) (a : Byte) :
    contribution rom ph.toNat k a = voiceScaled rom ph k a := by
  rw [contribution, voiceScaled, phaseIndex_eq_ofNat, scaleSample_eq_ediv]

theorem voiceScaled_mem (rom : RomTable) (ph : Word) (k : KindCode) (a : Byte) :
    -128 ≤ voiceScaled rom ph k a ∧ voiceScaled rom ph k a ≤ 126 :=
  scaleSample_mem _ _

@[simp] theorem voiceScaled_amp_zero (rom : RomTable) (ph : Word) (k : KindCode) : voiceScaled rom ph k 0 = 0 :=
  scaleSample_amp_zero _

theorem mixSum_eq_sum_voiceScaled (rom : RomTable) (s : State) :
    mixSum rom s = ∑ i : Voice, voiceScaled rom ((advancedPhases s).get i) (s.kind.get i) (s.amp.get i) := by
  simp only [mixSum, Quad.sum_eq_univ_sum, Quad.get_ofFn]

/-- The tree adds the four contributions exactly (R85). -/
theorem mixSum_eq_sum_contribution (rom : RomTable) (s : State) :
    mixSum rom s = ∑ i : Voice, contribution rom ((advancedPhases s).get i).toNat (s.kind.get i) (s.amp.get i) := by
  simp only [mixSum_eq_sum_voiceScaled, contribution_eq_voiceScaled]

/-- Four contributions of -128 to 126 (R85). -/
theorem mixSum_mem (rom : RomTable) (s : State) : -512 ≤ mixSum rom s ∧ mixSum rom s ≤ 504 := by
  have hmem (i : Voice) := voiceScaled_mem rom ((advancedPhases s).get i) (s.kind.get i) (s.amp.get i)
  rw [mixSum_eq_sum_voiceScaled]
  exact ⟨Finset.card_nsmul_le_sum _ _ (-128) fun i _ => (hmem i).1,
    Finset.sum_le_card_nsmul _ _ 126 fun i _ => (hmem i).2⟩

/-- A voice whose fellows have amplitude 0 is the whole mix. -/
theorem mixSum_eq_of_others_silent (rom : RomTable) (s : State) (j : Voice) (h : ∀ i, i ≠ j → s.amp.get i = 0) :
    mixSum rom s = voiceScaled rom ((advancedPhases s).get j) (s.kind.get j) (s.amp.get j) := by
  rw [mixSum_eq_sum_voiceScaled]
  exact Fintype.sum_eq_single j fun i hi => by rw [h i hi, voiceScaled_amp_zero]

theorem mixSum_eq_zero_of_silent (rom : RomTable) (s : State) (h : ∀ i, s.amp.get i = 0) : mixSum rom s = 0 := by
  rw [mixSum_eq_of_others_silent rom s 0 fun i _ => h i, h 0, voiceScaled_amp_zero]

/-- Settles O29: an exact sum over the voices does not change when they are permuted. -/
theorem sumIsExactInAnyOrder : Obligations.SumIsExactInAnyOrder := fun rom s σ =>
  ⟨(mixSum_eq_sum_contribution rom s).trans (Equiv.sum_comp σ _).symm, mixSum_mem rom s⟩

/-! ### The level -/

/-- The level is the biased sum modulo 256 (R86). -/
theorem outputLevel_toNat (bias : Byte) (sum : Int) :
    ((outputLevel bias sum).toNat : Int) = ((bias.toNat : Int) + sum) % 256 :=
  cast_toNat_ofInt 8 _

theorem byte_ofInt_toNat (b : Byte) : BitVec.ofInt 8 (b.toNat : Int) = b := by
  rw [BitVec.ofInt_natCast, BitVec.ofNat_toNat, BitVec.setWidth_eq]

@[simp] theorem outputLevel_zero (bias : Byte) : outputLevel bias 0 = bias := by
  rw [outputLevel, add_zero, byte_ofInt_toNat]

/-- With the bias centred the level does not wrap exactly inside the headroom (R146). -/
theorem outputLevel_center_iff (sum : Int) : ((outputLevel 127 sum).toNat : Int) = 127 + sum ↔ inHeadroom sum := by
  rw [outputLevel_toNat, show ((127 : Byte).toNat : Int) = 127 from rfl, inHeadroom]
  omega

/-- Settles O30: the level's residue, and the sums at which it is the biased sum itself. -/
theorem levelWrapsOutsideTheHeadroom : Obligations.LevelWrapsOutsideTheHeadroom := by
  refine fun bias sum => ⟨outputLevel_toNat bias sum, ?_⟩
  rintro rfl
  exact outputLevel_center_iff sum

/-! ### The widths of the datapath

A sum of words of `w` bits is the integers' sum modulo `2^w`; the level only needs that sum modulo 256. -/

/-- The 16-bit product is the exact product: it fits (R87). -/
theorem toInt_product16 (raw amp : Byte) :
    (raw.signExtend 16 * amp.setWidth 16).toInt = raw.toInt * (amp.toNat : Int) := by
  obtain ⟨hlo, hhi⟩ := product_mem raw amp
  have hamp : amp.setWidth 16 = BitVec.ofInt 16 amp.toNat := by rw [BitVec.ofInt_natCast, BitVec.ofNat_toNat]
  rw [BitVec.signExtend, hamp, ← BitVec.ofInt_mul]
  exact BitVec.toInt_ofInt_eq_self (by norm_num) (by norm_num; omega) (by norm_num; omega)

/-- The top byte of a 16-bit signed word is its quotient by 256 toward minus infinity. -/
theorem toInt_topByte (x : BitVec 16) : (x.extractLsb' 8 8).toInt = x.toInt / 256 := by
  have hx := x.isLt
  have htop : (x.extractLsb' 8 8).toNat = x.toNat / 256 := by
    rw [BitVec.extractLsb'_toNat, Nat.shiftRight_eq_div_pow]
    omega
  rw [BitVec.toInt_eq_toNat_cond, BitVec.toInt_eq_toNat_cond, htop]
  split <;> split <;> omega

/-- The scaler at the widths of R87 is the exact scaler. -/
theorem toInt_scaleBits (raw amp : Byte) : (scaleBits raw amp).toInt = scaleSample raw amp := by
  rw [scaleBits, toInt_topByte, toInt_product16, scaleSample_eq_ediv]

/-- The adder tree at 11 bits holds the sum of the four signed bytes modulo 2^11. -/
theorem sumBits_eq_ofInt (q : Quad Byte) : sumBits q = BitVec.ofInt 11 (q.map BitVec.toInt).sum := by
  simp only [sumBits, BitVec.signExtend, ← BitVec.ofInt_add, Quad.sum, Quad.map, add_assoc]

/-- The low eight bits of an integer held in 11 bits are those of the integer. -/
theorem setWidth_ofInt_eleven (a : Int) : (BitVec.ofInt 11 a).setWidth 8 = BitVec.ofInt 8 a := by
  apply BitVec.eq_of_toNat_eq
  have hwide := cast_toNat_ofInt 11 a
  have hlow := cast_toNat_ofInt 8 a
  rw [BitVec.toNat_setWidth]
  omega

/-- Settles O32: each voice's scaled byte is its contribution, and bias, tree and level agree modulo 256. -/
theorem datapathWidthsSuffice : Obligations.DatapathWidthsSuffice := by
  intro rom s
  have hsum : (Quad.map BitVec.toInt (Quad.ofFn fun i => scaleBits
      (romRead rom (s.kind.get i) (phaseIndex ((advancedPhases s).get i))) (s.amp.get i))).sum = mixSum rom s := by
    simp only [mixSum, Quad.sum_eq_univ_sum, Quad.get_map, Quad.get_ofFn, toInt_scaleBits, voiceScaled]
  rw [datapathLevel, sumBits_eq_ofInt, hsum, setWidth_ofInt_eleven, outputLevel, BitVec.ofInt_add, byte_ofInt_toNat]

/-! ### The sample of a TICK -/

theorem runEventWith_tick_running (rom : RomTable) {s : State} (h : s.running = true) :
    runEventWith rom .tick s = .next (produceSample rom s) :=
  congrArg _ (if_pos h)

/-- Settles O22: the next state is the produced sample; its level is the residue of the biased exact sum. -/
theorem tickProducesOneSample : Obligations.TickProducesOneSample := by
  refine ⟨fun rom s hrun => ⟨produceSample rom s, runEventWith_tick_running rom hrun, fun i => ?_, ?_, rfl, rfl⟩,
    fun rom s hstop => runEventWith_disabled rom hstop⟩
  · rw [produceSample_ph, advancedPhases_get, BitVec.toNat_add]
  · rw [produceSample_level, outputLevel_toNat, mixSum_eq_sum_contribution, produceSample_ph]

/-- Settles O35: silent voices add nothing to the bias. -/
theorem silentVoicesProduceTheBias : Obligations.SilentVoicesProduceTheBias := by
  intro rom s hrun hsilent
  have hlevel : (produceSample rom s).level = s.bias := by
    rw [produceSample_level, mixSum_eq_zero_of_silent rom s hsilent, outputLevel_zero]
  exact ⟨produceSample rom s, runEventWith_tick_running rom hrun, hlevel, congrArg (s.trace ++ [·]) hlevel,
    advancedPhases_get s⟩

/-- The level of one entry at full amplitude around the centre: every scaled entry but -128 is inside the headroom
(R88). -/
theorem outputLevel_center_full_cases (raw : Byte) :
    (0 < raw.toInt → ((outputLevel 127 (scaleSample raw 255)).toNat : Int) = 127 + (raw.toInt - 1)) ∧
      (raw.toInt ≤ 0 → raw.toInt ≠ -128 → ((outputLevel 127 (scaleSample raw 255)).toNat : Int) = 127 + raw.toInt) ∧
      (raw.toInt = -128 → outputLevel 127 (scaleSample raw 255) = 255) := by
  obtain ⟨hlo, hhi⟩ := byte_toInt_mem raw
  refine ⟨fun hpos => ?_, fun hnonpos hne => ?_, fun hmin => ?_⟩
  · rw [scaleSample_full_of_pos hpos]
    exact (outputLevel_center_iff _).mpr ⟨by omega, by omega⟩
  · rw [scaleSample_full_of_nonpos hnonpos]
    exact (outputLevel_center_iff _).mpr ⟨by omega, by omega⟩
  · rw [scaleSample_full_of_nonpos (by omega), hmin]
    decide

/-- Settles O36: the mix is the one voice's entry as the scaler leaves it at full amplitude. -/
theorem oneVoiceAtFullScale : Obligations.OneVoiceAtFullScale := by
  intro rom s j hrun hbias hfull hsilent
  have hlevel : (produceSample rom s).level =
      outputLevel 127 (scaleSample (romRead rom (s.kind.get j) (phaseIndex ((advancedPhases s).get j))) 255) := by
    rw [produceSample_level, hbias, mixSum_eq_of_others_silent rom s j hsilent, hfull, voiceScaled]
  refine ⟨produceSample rom s, _, runEventWith_tick_running rom hrun, rfl, ?_⟩
  rw [hlevel, produceSample_ph, ← phaseIndex_eq_ofNat]
  exact outputLevel_center_full_cases _

end Sys2Proof.Machine
end

section
/-!
PROOFS. The Output Mode Selector of 42_output_mode.md: what the first BEGIN writes and what a later one does not (O14,
O15), the path enables (O46), the line BEGIN without operand (O56), and that the mode does not enter the samples (O37).
-/

namespace Sys2Proof.Machine

/-! ### The mode does not enter the samples

Two states that differ at most in the mode enable the same events, and every event takes them to two states that differ
at most in the mode: the level and the trace are among the fields that agree. -/

section Noninterference

variable {rom : RomTable} {s t : State}

/-- The state with another mode. -/
def setMode (m : ModeCode) (s : State) : State := { s with mode := m }

/-- The states differ at most in the mode. -/
def SameButMode (s t : State) : Prop := ∃ m, t = setMode m s

/-- Both answers are next states, and these differ at most in the mode. -/
def NextSameButMode (x y : Result) : Prop := ∃ s t, x = .next s ∧ y = .next t ∧ SameButMode s t

theorem SameButMode.next (h : SameButMode s t) : NextSameButMode (.next s) (.next t) := ⟨s, t, rfl, rfl, h⟩

/-- The same choice made on both sides. -/
theorem SameButMode.ite {b : Bool} {s₁ s₂ t₁ t₂ : State} (h₁ : SameButMode s₁ t₁) (h₂ : SameButMode s₂ t₂) :
    SameButMode (if b then s₁ else s₂) (if b then t₁ else t₂) := by
  cases b with
  | true => exact h₁
  | false => exact h₂

theorem enabled_setMode (e : Event) (m : ModeCode) (s : State) : enabled e (setMode m s) = enabled e s := by
  cases e with
  | commit f i => cases f <;> rfl
  | _ => rfl

/-- The sample path reads phases, tuning words, kinds, amplitudes and the bias, and not the mode (R93). -/
theorem produceSample_setMode (rom : RomTable) (m : ModeCode) (s : State) :
    produceSample rom (setMode m s) = setMode m (produceSample rom s) :=
  rfl

/-- Of the commands only BEGIN writes the mode, and it does not read it. -/
theorem SameButMode.effect (h : SameButMode s t) (i : Instr) : SameButMode (effect i s) (effect i t) := by
  obtain ⟨m, rfl⟩ := h
  cases i with
  | nop => exact ⟨m, rfl⟩
  | begin b => exact .ite (b := s.begun) ⟨m, rfl⟩ ⟨normMode b, rfl⟩
  | setwave b0 b1 b2 b3 => exact ⟨m, rfl⟩
  | settw v x => exact ⟨m, rfl⟩
  | setvol b0 b1 b2 b3 => exact ⟨m, rfl⟩
  | suspend => exact .ite (b := alreadySuspended s) ⟨m, rfl⟩ ⟨m, rfl⟩
  | resume => exact .ite (b := s.begun) ⟨m, rfl⟩ ⟨m, rfl⟩

/-- An ACCEPT that is enabled performs the command on the port, whose word is gone. -/
theorem acceptEvent_enabled (h : enabled .accept s = true) :
    ∃ w, s.cmdPort = some w ∧ acceptEvent s = .next (effect (decode w) { s with cmdPort := none }) := by
  obtain ⟨hvalid, hready⟩ := Bool.and_eq_true_iff.mp h
  obtain ⟨w, hw⟩ := Option.isSome_iff_exists.mp hvalid
  exact ⟨w, hw, (acceptEvent_ready hw hready).trans (exec_ready (s := { s with cmdPort := none }) _ hready)⟩

theorem SameButMode.accept_enabled (h : SameButMode s t) (hen : enabled .accept s = true) :
    NextSameButMode (acceptEvent s) (acceptEvent t) := by
  obtain ⟨m, rfl⟩ := h
  obtain ⟨w, hw, hs⟩ := acceptEvent_enabled hen
  obtain ⟨w', hw', ht⟩ := acceptEvent_enabled ((enabled_setMode .accept m s).trans hen)
  obtain rfl : w = w' := Option.some.inj (hw.symm.trans hw')
  have hport : SameButMode { s with cmdPort := none } { setMode m s with cmdPort := none } := ⟨m, rfl⟩
  exact ⟨_, _, hs, ht, hport.effect (decode w)⟩

theorem SameButMode.commit_enabled (h : SameButMode s t) (f : PendField) (i : Voice)
    (hen : enabled (.commit f i) s = true) : SameButMode (commitEvent f i s) (commitEvent f i t) := by
  obtain ⟨m, rfl⟩ := h
  cases f with
  | kind =>
    obtain ⟨k, hk⟩ := Option.isSome_iff_exists.mp hen
    exact ⟨m, by rw [commitEvent_kind_pending hk, commitEvent_kind_pending (s := setMode m s) hk]; rfl⟩
  | amp =>
    obtain ⟨a, ha⟩ := Option.isSome_iff_exists.mp hen
    exact ⟨m, by rw [commitEvent_amp_pending ha, commitEvent_amp_pending (s := setMode m s) ha]; rfl⟩

/-- One event of two states that differ at most in the mode. -/
theorem SameButMode.runEventWith (h : SameButMode s t) (rom : RomTable) (e : Event) :
    NextSameButMode (runEventWith rom e s) (runEventWith rom e t) := by
  obtain ⟨m, rfl⟩ := h
  have hsame : SameButMode s (setMode m s) := ⟨m, rfl⟩
  cases hen : enabled e s with
  | false =>
    rw [runEventWith_disabled rom hen, runEventWith_disabled rom ((enabled_setMode e m s).trans hen)]
    exact hsame.next
  | true =>
    cases e with
    | present w => exact SameButMode.next ⟨m, rfl⟩
    | withdraw => exact SameButMode.next ⟨m, rfl⟩
    | accept => exact hsame.accept_enabled hen
    | commit f i => exact (hsame.commit_enabled f i hen).next
    | tick => exact (SameButMode.ite (b := s.running) ⟨m, produceSample_setMode rom m s⟩ hsame).next
    | rstep => exact (SameButMode.ite (b := enabled .rstep s) ⟨m, rfl⟩ hsame).next
    | rdone => exact (SameButMode.ite (b := enabled .rdone s) ⟨m, rfl⟩ hsame).next
    | reset => exact SameButMode.next ⟨0, rfl⟩

theorem SameButMode.runEventsWith (h : SameButMode s t) (rom : RomTable) (es : List Event) :
    NextSameButMode (runEventsWith rom es s) (runEventsWith rom es t) := by
  induction es generalizing s t with
  | nil => exact h.next
  | cons e es ih =>
    obtain ⟨s', t', hs, ht, h'⟩ := h.runEventWith rom e
    rw [runEventsWith_cons hs, runEventsWith_cons ht]
    exact ih h'

end Noninterference

/-- Settles O37, by induction on the events: the two machines differ at most in the mode all along. -/
theorem modeDoesNotEnterTheSamples : Obligations.ModeDoesNotEnterTheSamples := by
  intro rom es s m
  have hstart : SameButMode s (setMode m s) := ⟨m, rfl⟩
  obtain ⟨t, _, ht, ht', m', rfl⟩ := hstart.runEventsWith rom es
  exact ⟨t, setMode m' t, ht, ht', rfl, rfl, rfl⟩

/-! ### BEGIN -/

section Begin

variable {s t : State} {e : Event}

theorem effect_begin_of_begun (m : Byte) (h : s.begun = true) : effect (.begin m) s = s := if_pos h

theorem effect_begin_first (m : Byte) (h : s.begun = false) : effect (.begin m) s = startUp s m :=
  if_neg (ne_true_of_eq_false h)

/-- A BEGIN after the first one changes nothing, whether it is accepted (R91) or waits (R52). -/
theorem exec_begin_of_begun (m : Byte) (h : s.begun = true) : exec (.begin m) s = .next s := by
  cases hready : cmdReady s with
  | true => rw [exec_ready _ hready, effect_begin_of_begun m h]
  | false => exact exec_waits _ hready

/-- No command clears `begun`, and none changes the mode once `begun = 1`. -/
theorem effect_keeps_mode (h : s.begun = true) (i : Instr) :
    (effect i s).begun = true ∧ (effect i s).mode = s.mode := by
  cases i with
  | nop => exact ⟨h, rfl⟩
  | begin m => rw [effect_begin_of_begun m h]; exact ⟨h, rfl⟩
  | setwave b0 b1 b2 b3 => exact ⟨h, rfl⟩
  | settw v x => exact ⟨h, rfl⟩
  | setvol b0 b1 b2 b3 => exact ⟨h, rfl⟩
  | suspend => obtain ⟨-, he⟩ | ⟨-, he⟩ := effect_suspend_cases s <;> rw [he] <;> exact ⟨h, rfl⟩
  | resume => obtain ⟨-, he⟩ | ⟨-, he⟩ := effect_resume_cases s <;> rw [he] <;> exact ⟨h, rfl⟩

/-- Once `begun = 1` only RESET clears it or changes the mode (R91): by the write matrix only an ACCEPT could. -/
theorem runEvent_keeps_mode (h : s.begun = true) (ht : runEvent e s = .next t) (hreset : e ≠ .reset) :
    t.begun = true ∧ t.mode = s.mode := by
  by_cases hacc : e = .accept
  · subst hacc
    obtain ⟨w, -, -, rfl⟩ | rfl := acceptEvent_next_cases ht
    · exact effect_keeps_mode (s := { s with cmdPort := none }) h (decode w)
    · exact ⟨h, rfl⟩
  · obtain ⟨-, -, -, -, hmode, hbegun, -⟩ := writeMatrix e s t ht
    simp only [hacc, hreset, false_and, or_self, imp_false, not_not] at hmode hbegun
    exact ⟨hbegun.trans h, hmode⟩

end Begin

/-- Settles O14: the accepted BEGIN is `startUp`, which `cmd_ready` does not depend on. -/
theorem firstBeginStartsProduction : Obligations.FirstBeginStartsProduction := by
  intro s m hready hbegun
  have hexec : exec (.begin m) s = .next (startUp s m) := by rw [exec_ready _ hready, effect_begin_first m hbegun]
  exact ⟨startUp s m, hexec, normKind_eq_fallbackCode m, rfl, rfl, rfl, rfl, hready⟩

/-- Settles O15, from what a BEGIN does and what every event keeps once `begun = 1`. -/
theorem secondBeginChangesNothing : Obligations.SecondBeginChangesNothing :=
  ⟨fun _ m h => exec_begin_of_begun m h, fun _ _ _ h ht hreset => runEvent_keeps_mode h ht hreset⟩

/-! ### The path enables -/

section Paths

variable {s t : State}

/-- With `begun = 0` both enables are 0 (R92). -/
theorem pathEnables_of_not_begun (h : s.begun = false) : pathAEn s = false ∧ pathBEn s = false := by
  simp [pathAEn, pathBEn, h]

/-- With `begun = 1` the enables are functions of the mode (R92). -/
theorem pathEnables_of_begun (h : s.begun = true) :
    pathAEn s = (s.mode == 0 || s.mode == 2) ∧ pathBEn s = (s.mode == 1 || s.mode == 2) := by
  simp [pathAEn, pathBEn, h]

theorem pathEnables_congr (hbegun : t.begun = s.begun) (hmode : t.mode = s.mode) :
    pathAEn t = pathAEn s ∧ pathBEn t = pathBEn s := by
  simp [pathAEn, pathBEn, hbegun, hmode]

end Paths

/-- Settles O46: the enables depend on `begun` and the mode only, and once `begun = 1` only RESET changes these. -/
theorem pathEnablesFollowTheMode : Obligations.PathEnablesFollowTheMode := by
  refine ⟨fun s => ⟨pathEnables_of_not_begun, fun hb hm => ?_, fun hb hm => ?_, fun hb hm => ?_⟩,
    fun e s t ht hb hreset => ?_⟩
  · simpa [hm] using pathEnables_of_begun hb
  · simpa [hm] using pathEnables_of_begun hb
  · simpa [hm] using pathEnables_of_begun hb
  · obtain ⟨hbegun, hmode⟩ := runEvent_keeps_mode hb ht hreset
    exact pathEnables_congr (hbegun.trans hb.symm) hmode

/-! ### The line BEGIN -/

/-- A BEGIN line is never refused, and its word depends on the mode byte only, not on the sample rate. -/
theorem assembleWord_begin (rate : Freq) (m : Option ModeArg) :
    assembleWord rate (.begin m) = .ok (encode (.begin (modeArgByte m))) :=
  rfl

/-- Without an operand the mode byte is that of SEA (R63). -/
theorem modeArgByte_none : modeArgByte none = modeArgByte (some .sea) := rfl

/-- Settles O56: both lines have the mode byte 0, and its canonical word is evaluated. -/
theorem beginWithoutOperandIsSea : Obligations.BeginWithoutOperandIsSea := by
  intro rate
  have hword : encode (.begin (modeArgByte (some .sea))) = 0x1000000000 := by decide
  rw [assembleWord_begin, assembleWord_begin, modeArgByte_none, hword]
  exact ⟨rfl, rfl⟩

end Sys2Proof.Machine
end

section
/-!
PROOFS. The Suspend/Resume Controller of 43_suspend_resume.md: what SUSPEND, RESUME, RSTEP and RDONE write (O16, O17, O18,
O23, O24), the controller's state machine (O45), the ramp along finite runs (O47) and along fair runs (O48), and the first
sample after a resume (O49).
-/

namespace Sys2Proof.Machine

/-! ### SUSPEND and RESUME -/

section Commands

variable {rom : RomTable} {es : List Event} {s : State}

theorem effect_suspend_of_suspended (hstop : s.running = false) (hcentre : s.bias = 127) :
    effect .suspend s = s :=
  if_pos (alreadySuspended_iff.mpr ⟨hstop, hcentre⟩)

theorem effect_suspend_of_not_suspended (h : ¬(s.running = false ∧ s.bias = 127)) :
    effect .suspend s = setRamping s true :=
  if_neg (mt alreadySuspended_iff.mp h)

theorem effect_resume_of_begun (h : s.begun = true) : effect .resume s = setRunning s true := if_pos h

/-- A RESUME before any BEGIN changes nothing, whether it is accepted (R104) or waits (R52). -/
theorem exec_resume_of_not_begun (h : s.begun = false) : exec .resume s = .next s := by
  cases hready : cmdReady s with
  | true => rw [exec_ready _ hready, effect, h]; rfl
  | false => exact exec_waits _ hready

/-- Events that lead from a state back to it do so any number of times. -/
theorem runEventsWith_replicate (h : ∀ fs, runEventsWith rom (es ++ fs) s = runEventsWith rom fs s) (n : Nat) :
    runEventsWith rom (List.replicate n es).flatten s = .next s := by
  induction n with
  | zero => rfl
  | succ n ih => rw [List.replicate_succ, List.flatten_cons, h, ih]

end Commands

/-- Settles O16: the accepted SUSPEND sets `ramping`, which `sclk_en` does not depend on. -/
theorem suspendStartsTheRamp : Obligations.SuspendStartsTheRamp := by
  intro s hready hactive
  have hexec : exec .suspend s = .next (setRamping s true) := by
    rw [exec_ready _ hready, effect_suspend_of_not_suspended hactive]
  exact ⟨setRamping s true, hexec, rfl, rfl, rfl, rfl, rfl⟩

/-- Settles O17: each SUSPEND is accepted without an effect, and the port is again as it was. -/
theorem suspendWhenSuspendedIsNoOp : Obligations.SuspendWhenSuspendedIsNoOp := by
  intro s hready hstop hcentre
  have heffect : effect .suspend s = s := effect_suspend_of_suspended hstop hcentre
  have hramp := ramping_of_cmdReady hready
  refine ⟨by rw [exec_ready _ hready, heffect], enabled_rstep_of_not_ramping hramp, enabled_rdone_of_not_ramping hramp,
    fun w n hop hport => runEventsWith_replicate (fun fs => ?_) n⟩
  have hsame : { s with cmdPort := none } = s := by rw [← hport]
  rw [runEventsWith_offerEvents _ w fs hready, decode_suspend (BitVec.eq_of_toNat_eq hop), hsame, heffect]

/-- Settles O18: the accepted RESUME sets `running`, which `cmd_ready` does not depend on. -/
theorem resumeEnablesProduction : Obligations.ResumeEnablesProduction := by
  refine ⟨fun s hready hbegun => ?_, fun s h => exec_resume_of_not_begun h⟩
  have hexec : exec .resume s = .next (setRunning s true) := by
    rw [exec_ready _ hready, effect_resume_of_begun hbegun]
  exact ⟨setRunning s true, hexec, rfl, rfl, hready⟩

/-! ### The controller -/

section Controllers

variable {s t : State} {e : Event}

theorem controller_of_ramping (h : s.ramping = true) : controller s = .rampingDown := if_pos h

theorem controller_of_running (hramp : s.ramping = false) (hrun : s.running = true) : controller s = .running := by
  simp [controller, hramp, hrun]

theorem controller_of_stopped (hramp : s.ramping = false) (hrun : s.running = false) : controller s = .suspended := by
  simp [controller, hramp, hrun]

theorem controller_congr (hramp : t.ramping = s.ramping) (hrun : t.running = s.running) :
    controller t = controller s := by
  rw [controller, controller, hramp, hrun]

/-- By the write matrix only ACCEPT, RDONE and RESET write the two flags that encode the controller's state. -/
theorem event_of_controller_ne (h : runEvent e s = .next t) (hne : controller t ≠ controller s) :
    e = .accept ∨ e = .rdone ∨ e = .reset := by
  obtain ⟨-, -, -, -, -, -, hrun, hramp, -⟩ := writeMatrix e s t h
  by_cases hr : t.ramping = s.ramping
  · exact (hrun fun hp => hne (controller_congr hr hp)).imp_left And.left
  · exact (hramp hr).imp_left And.left

/-- The rows of R105 that a command performs. -/
theorem controller_effect_cases (c : Instr) (hramp : s.ramping = false)
    (hne : controller (effect c s) ≠ controller s) :
    (controller s = .suspended ∧ controller (effect c s) = .running ∧
        (((∃ m, c = .begin m) ∧ s.begun = false) ∨ (c = .resume ∧ s.begun = true))) ∨
      (controller (effect c s) = .rampingDown ∧ c = .suspend ∧
        (controller s = .running ∨ (controller s = .suspended ∧ s.bias ≠ 127))) := by
  have hstop (hstart : controller (effect c s) = .running) : controller s = .suspended := by
    cases hrun : s.running with
    | true => exact absurd (hstart.trans (controller_of_running hramp hrun).symm) hne
    | false => exact controller_of_stopped hramp hrun
  cases c with
  | nop => exact absurd rfl hne
  | begin m =>
    obtain ⟨-, he⟩ | ⟨hbegun, he⟩ := effect_begin_cases m s
    · exact absurd (congrArg controller he) hne
    · have hstart : controller (effect (.begin m) s) = .running := by
        rw [he]; exact controller_of_running hramp rfl
      exact .inl ⟨hstop hstart, hstart, .inl ⟨⟨m, rfl⟩, hbegun⟩⟩
  | setwave b0 b1 b2 b3 => exact absurd rfl hne
  | settw v x => exact absurd rfl hne
  | setvol b0 b1 b2 b3 => exact absurd rfl hne
  | suspend =>
    obtain ⟨-, he⟩ | ⟨hactive, he⟩ := effect_suspend_cases s
    · exact absurd (congrArg controller he) hne
    · refine .inr ⟨by rw [he]; rfl, rfl, ?_⟩
      cases hrun : s.running with
      | true => exact .inl (controller_of_running hramp hrun)
      | false =>
        refine .inr ⟨controller_of_stopped hramp hrun, fun hcentre => ?_⟩
        simp [alreadySuspended_iff.mpr ⟨hrun, hcentre⟩] at hactive
  | resume =>
    obtain ⟨hbegun, he⟩ | ⟨-, he⟩ := effect_resume_cases s
    · have hstart : controller (effect .resume s) = .running := by
        rw [he]; exact controller_of_running hramp rfl
      exact .inl ⟨hstop hstart, hstart, .inr ⟨rfl, hbegun⟩⟩
    · exact absurd (congrArg controller he) hne

end Controllers

/-- Settles O45: ACCEPT performs the rows of the commands, RDONE and RESET one row each, and no other event writes the
flags. -/
theorem controllerTransitions : Obligations.ControllerTransitions := by
  intro e s t h hne
  obtain rfl | rfl | rfl := event_of_controller_ne h hne
  · obtain ⟨w, hw, hready, rfl⟩ | rfl := acceptEvent_next_cases h
    · obtain ⟨hs, ht, hcommand⟩ | ⟨ht, hcommand, hs⟩ :=
        controller_effect_cases (s := { s with cmdPort := none }) (decode w) (ramping_of_cmdReady hready) hne
      · exact .inl ⟨hs, ht, rfl, w, hw, hcommand⟩
      · exact .inr (.inl ⟨ht, rfl, ⟨w, hw, hcommand⟩, hs⟩)
    · exact absurd rfl hne
  · obtain rfl : rdoneEvent s = t := Host.Outcome.next.inj h
    obtain ⟨hramp, hcentre, he⟩ | ⟨-, he⟩ := rdoneEvent_cases s
    · exact .inr (.inr (.inl ⟨controller_of_ramping hramp, by rw [he]; rfl, rfl, hcentre⟩))
    · exact absurd (congrArg controller he) hne
  · cases h
    exact .inr (.inr (.inr ⟨rfl, rfl⟩))

/-! ### The ramp -/

section Ramp

variable {rom : RomTable} {e : Event} {es : List Event} {s t u : State} {m n : Nat}

theorem rstepEvent_enabled (h : enabled .rstep s = true) :
    rstepEvent s = { s with bias := biasTowardCenter s.bias } :=
  if_pos h

/-- The state after the RDONE of a ramp (R103). -/
def rampEnded (s : State) : State := { s with running := false, ramping := false, ph := Quad.fill 0 }

theorem rdoneEvent_enabled (h : enabled .rdone s = true) : rdoneEvent s = rampEnded s := if_pos h

theorem runEventWith_rdone (rom : RomTable) (hs : s.ramping = true) (hcentre : s.bias = 127) :
    runEventWith rom .rdone s = .next (rampEnded s) :=
  congrArg _ (rdoneEvent_enabled (enabled_rdone_iff.mpr ⟨hs, hcentre⟩))

theorem biasTowardCenter_of_above {b : Byte} (h : 127 < b.toNat) : (biasTowardCenter b).toNat + 1 = b.toNat := by
  have he : biasTowardCenter b = b - 1 := if_pos h
  rw [he]
  bv_omega

theorem biasTowardCenter_of_below {b : Byte} (h : b.toNat < 127) : (biasTowardCenter b).toNat = b.toNat + 1 := by
  have hle : ¬127 < b.toNat := by omega
  have he : biasTowardCenter b = b + 1 := if_neg hle
  rw [he]
  bv_omega

theorem biasDistance_eq_zero_iff {b : Byte} : biasDistance b = 0 ↔ b = 127 := by
  rw [biasDistance, BitVec.toNat_eq, show (127 : Byte).toNat = 127 from rfl]
  omega

/-- From `s` to the ramping state `t`, the bias has come `n` units closer to 127, stopping there, on its side of it; the
block runs as before, and no write has become pending. -/
structure RampAdvances (n : Nat) (s t : State) : Prop where
  ramping : t.ramping = true
  running : t.running = s.running
  nothingPending : pendEmpty s = true → pendEmpty t = true
  distance : biasDistance t.bias = biasDistance s.bias - n
  above : 127 ≤ s.bias.toNat → 127 ≤ t.bias.toNat ∧ t.bias.toNat ≤ s.bias.toNat
  below : s.bias.toNat ≤ 127 → t.bias.toNat ≤ 127 ∧ s.bias.toNat ≤ t.bias.toNat

theorem RampAdvances.of_bias_eq (hramp : t.ramping = true) (hrun : t.running = s.running)
    (hpend : pendEmpty s = true → pendEmpty t = true) (hbias : t.bias = s.bias) : RampAdvances 0 s t :=
  ⟨hramp, hrun, hpend, congrArg biasDistance hbias, fun h => by rw [hbias]; exact ⟨h, le_rfl⟩,
    fun h => by rw [hbias]; exact ⟨h, le_rfl⟩⟩

theorem RampAdvances.refl (hs : s.ramping = true) : RampAdvances 0 s s := .of_bias_eq hs rfl id rfl

theorem RampAdvances.trans (hst : RampAdvances m s t) (htu : RampAdvances n t u) : RampAdvances (m + n) s u where
  ramping := htu.ramping
  running := htu.running.trans hst.running
  nothingPending h := htu.nothingPending (hst.nothingPending h)
  distance := by rw [htu.distance, hst.distance, Nat.sub_sub]
  above h :=
    have ⟨ht, hle⟩ := hst.above h
    ⟨(htu.above ht).1, (htu.above ht).2.trans hle⟩
  below h :=
    have ⟨ht, hle⟩ := hst.below h
    ⟨(htu.below ht).1, hle.trans (htu.below ht).2⟩

/-- An RSTEP of a ramp, which is not enabled when the bias has arrived (R102). -/
theorem rampAdvances_rstep (hs : s.ramping = true) : RampAdvances 1 s (rstepEvent s) := by
  by_cases hcentre : s.bias = 127
  · have he : rstepEvent s = s := rstepEvent_disabled (by simp [enabled, hcentre, Config.biasCenter])
    have hzero := biasDistance_eq_zero_iff.mpr hcentre
    rw [he]
    exact { RampAdvances.refl hs with distance := by rw [hzero] }
  · have hdist := biasDistance_biasTowardCenter hcentre
    have hne : s.bias.toNat ≠ 127 := fun h => hcentre (BitVec.eq_of_toNat_eq h)
    rw [rstepEvent_enabled (enabled_rstep_iff.mpr ⟨hs, hcentre⟩)]
    refine ⟨hs, rfl, id, by simp only; omega, fun h => ?_, fun h => ?_⟩
    · have hnext := biasTowardCenter_of_above (b := s.bias) (by omega)
      simp only
      omega
    · have hnext := biasTowardCenter_of_below (b := s.bias) (by omega)
      simp only
      omega

theorem rampAdvances_commit (f : PendField) (i : Voice) (hs : s.ramping = true) :
    RampAdvances 0 s (commitEvent f i s) := by
  obtain ⟨hramp, hbias⟩ := commitEvent_ramp f i s
  have hrun : (commitEvent f i s).running = s.running := by
    cases f with
    | kind => obtain ⟨k, -, he⟩ | ⟨-, he⟩ := commitEvent_kind_cases i s <;> rw [he]
    | amp => obtain ⟨a, -, he⟩ | ⟨-, he⟩ := commitEvent_amp_cases i s <;> rw [he]
  refine .of_bias_eq (hramp.trans hs) hrun (fun hempty => pendEmpty_of_commits_disabled fun g j => ?_) hbias
  have hnone : enabled (.commit g j) s = false := by
    obtain ⟨hk, ha⟩ := pendEmpty_iff.mp hempty
    cases g <;> simp [enabled, hk, ha]
  simp [Bool.eq_false_iff, enabled_commit_commitEvent, hnone]

/-- An event that does not end the ramp moves the bias by one unit if it is an RSTEP, and not otherwise: nothing is
accepted during a ramp. -/
theorem rampAdvances_event (hs : s.ramping = true) (hdone : e = .rdone → enabled .rdone s = false) (hreset : e ≠ .reset)
    (h : runEventWith rom e s = .next t) : RampAdvances (if e = .rstep then 1 else 0) s t := by
  cases e with
  | present w => cases h; exact .of_bias_eq hs rfl id rfl
  | withdraw => cases h; exact .of_bias_eq hs rfl id rfl
  | accept =>
    obtain ⟨w, -, hready, -⟩ | rfl := acceptEvent_next_cases h
    · simp [ramping_of_cmdReady hready] at hs
    · exact .refl hs
  | commit f i => exact Host.Outcome.next.inj h ▸ rampAdvances_commit f i hs
  | tick =>
    obtain rfl : tickEvent rom s = t := Host.Outcome.next.inj h
    obtain ⟨-, he⟩ | ⟨-, he⟩ := tickEvent_cases rom s <;> rw [he] <;> exact .of_bias_eq hs rfl id rfl
  | rstep => exact Host.Outcome.next.inj h ▸ rampAdvances_rstep hs
  | rdone =>
    obtain rfl : rdoneEvent s = t := Host.Outcome.next.inj h
    rw [rdoneEvent_disabled (hdone rfl)]
    exact .refl hs
  | reset => exact absurd rfl hreset

theorem rampAdvances_run (hs : s.ramping = true) (hdone : .rdone ∉ es) (hreset : .reset ∉ es) :
    ∃ t, runEventsWith rom es s = .next t ∧ RampAdvances (es.count .rstep) s t := by
  induction es generalizing s with
  | nil => exact ⟨s, rfl, .refl hs⟩
  | cons e es ih =>
    obtain ⟨hdone₁, hdone₂⟩ := not_or.mp (mt List.mem_cons.mpr hdone)
    obtain ⟨hreset₁, hreset₂⟩ := not_or.mp (mt List.mem_cons.mpr hreset)
    obtain ⟨x, hx, -⟩ := runEventWith_agendaFree rom e s
    have hfirst := rampAdvances_event hs (fun he => absurd he.symm hdone₁) (Ne.symm hreset₁) hx
    obtain ⟨t, ht, hrest⟩ := ih hfirst.ramping hdone₂ hreset₂
    refine ⟨t, (runEventsWith_cons hx).trans ht, ?_⟩
    simpa [List.count_cons, Nat.add_comm] using hfirst.trans hrest

end Ramp

/-- Settles O47, by induction on the events: each of them advances the ramp or leaves it as it is. -/
theorem rampNeverOvershoots : Obligations.RampNeverOvershoots := by
  intro rom es s hs hdone hreset
  obtain ⟨t, ht, ramp⟩ := rampAdvances_run hs hdone hreset
  exact ⟨t, ht, ramp.ramping, ramp.running, ramp.distance, ramp.above, ramp.below⟩

/-- Settles O23: an enabled RSTEP writes the bias only. -/
theorem rstepMovesTheBiasOneUnit : Obligations.RstepMovesTheBiasOneUnit := by
  intro s hs hoff
  have hrun : runEvent .rstep s = .next { s with bias := biasTowardCenter s.bias } :=
    congrArg _ (rstepEvent_enabled (enabled_rstep_iff.mpr ⟨hs, hoff⟩))
  refine ⟨_, hrun, rfl, fun habove => ?_, fun hbelow => ?_, biasDistance_biasTowardCenter hoff⟩
  · have hnext := biasTowardCenter_of_above habove
    exact ⟨hnext, by simp only; omega⟩
  · have hnext := biasTowardCenter_of_below hbelow
    exact ⟨hnext, by simp only; omega⟩

/-- Settles O24: an enabled RDONE writes the two flags and the phases. -/
theorem rdoneEndsTheRamp : Obligations.RdoneEndsTheRamp := fun s hs hcentre =>
  ⟨rampEnded s, runEventWith_rdone Config.rom hs hcentre, rfl, rfl, Quad.get_fill 0, rfl, rfl⟩

/-! ### The ramp ends

Until an RDONE is taken the ramp goes on and nothing becomes pending, so no COMMIT is ever enabled and a run that is fair
to RSTEP and RDONE is fair to every internal agent. As the port is ready again and again in such a run, an RDONE is
taken. -/

section RampRuns

variable {r : Nat → State} {ev : Nat → Event} {n : Nat}

/-- How many RSTEPs are taken before the n-th place of a run. -/
def rstepsTaken (r : Nat → State) (ev : Nat → Event) (n : Nat) : Nat :=
  (List.range n).countP fun m => ev m == .rstep && enabled .rstep (r m)

theorem rstepsTaken_succ (r : Nat → State) (ev : Nat → Event) (n : Nat) :
    rstepsTaken r ev (n + 1) = rstepsTaken r ev n + if ev n = .rstep ∧ enabled .rstep (r n) = true then 1 else 0 := by
  simp [rstepsTaken, List.range_succ, List.countP_append, List.countP_cons]

/-- One event of a ramp that is not ended there. -/
theorem rampAdvances_succ (hrun : IsRun r ev) (hreset : ∀ m, ev m ≠ .reset) (hramp : (r n).ramping = true)
    (hdone : ¬Taken .rdone r ev n) : RampAdvances (if ev n = .rstep then 1 else 0) (r n) (r (n + 1)) :=
  rampAdvances_event hramp (fun he => Bool.eq_false_iff.mpr fun hen => hdone ⟨he, hen⟩) (hreset n) (hrun n)

/-- Until an RDONE is taken the ramp goes on, nothing becomes pending, and each RSTEP that is taken has brought the bias
one unit closer. -/
theorem ramp_until_rdone (hrun : IsRun r ev) (hreset : ∀ m, ev m ≠ .reset) (hramp : (r 0).ramping = true)
    (hempty : pendEmpty (r 0) = true) (hdone : ∀ m, m < n → ¬Taken .rdone r ev m) :
    (r n).ramping = true ∧ pendEmpty (r n) = true ∧
      rstepsTaken r ev n + biasDistance (r n).bias = biasDistance (r 0).bias := by
  induction n with
  | zero => exact ⟨hramp, hempty, Nat.zero_add _⟩
  | succ n ih =>
    obtain ⟨hr, hp, hsum⟩ := ih fun m hm => hdone m (by omega)
    have hstep := rampAdvances_succ hrun hreset hr (hdone n (by omega))
    refine ⟨hstep.ramping, hstep.nothingPending hp, ?_⟩
    have hen : enabled .rstep (r n) = true ↔ biasDistance (r n).bias ≠ 0 := by
      simp [enabled_rstep_iff, hr, biasDistance_eq_zero_iff]
    rw [rstepsTaken_succ, hstep.distance]
    by_cases hev : ev n = .rstep
    · simp only [hev, hen, true_and, if_true]
      split <;> omega
    · simpa [hev] using hsum

theorem exists_rdone_taken (hrun : IsRun r ev) (hstep : WeaklyFair .rstep r ev) (hdone : WeaklyFair .rdone r ev)
    (hreset : ∀ m, ev m ≠ .reset) (hramp : (r 0).ramping = true) (hempty : pendEmpty (r 0) = true) :
    ∃ n, Taken .rdone r ev n := by
  by_contra hno
  push Not at hno
  have hall n := ramp_until_rdone (n := n) hrun hreset hramp hempty fun m _ => hno m
  have hcommit (f : PendField) (i : Voice) : WeaklyFair (.commit f i) r ev := fun n hen => by
    obtain ⟨-, hp, -⟩ := hall n
    obtain ⟨hk, ha⟩ := pendEmpty_iff.mp hp
    have hn := hen n le_rfl
    cases f <;> simp [enabled, hk, ha] at hn
  obtain ⟨n, -, hready⟩ := exists_ready hrun ⟨hcommit, hstep, hdone⟩ 0
  obtain ⟨hr, -, -⟩ := hall n
  simp [ramping_of_cmdReady hready] at hr

theorem rdone_taken_succ (hrun : IsRun r ev) (htaken : Taken .rdone r ev n) :
    r (n + 1) = rampEnded (r n) := by
  obtain ⟨hev, hen⟩ := htaken
  have hnext : runEvent .rdone (r n) = .next (r (n + 1)) := hev ▸ hrun n
  exact (Host.Outcome.next.inj hnext).symm.trans (rdoneEvent_enabled hen)

end RampRuns

/-- Settles O48 at the first place where an RDONE is taken. -/
theorem suspendAlwaysTerminates : Obligations.SuspendAlwaysTerminates := by
  classical
  intro r ev hrun hstep hdone hreset hramp hempty
  have hex := exists_rdone_taken hrun hstep hdone hreset hramp hempty
  obtain ⟨n, htaken, hfirst⟩ : ∃ n, Taken .rdone r ev n ∧ ∀ m, m < n → ¬Taken .rdone r ev m :=
    ⟨Nat.find hex, Nat.find_spec hex, fun _ hm => Nat.find_min hex hm⟩
  have hbefore m (hm : m ≤ n) := ramp_until_rdone hrun hreset hramp hempty fun k (hk : k < m) => hfirst k (hk.trans_le hm)
  obtain ⟨-, hp, hsum⟩ := hbefore n le_rfl
  obtain ⟨-, hcentre⟩ := enabled_rdone_iff.mp htaken.2
  have hsucc := rdone_taken_succ hrun htaken
  refine ⟨n, htaken, fun m hm => (hbefore m hm).1, ?_, fun m hm => ?_, ?_⟩
  · rwa [biasDistance_eq_zero_iff.mpr hcentre] at hsum
  · exact (rampAdvances_succ hrun hreset (hbefore m hm.le).1 (hfirst m hm)).distance
  · rw [hsucc]
    exact ⟨hcentre, Quad.get_fill 0, rfl, rfl, cmdReady_iff.mpr ⟨rfl, hp⟩⟩

/-! ### The first sample after a resume -/

section Resume

variable {rom : RomTable} {s : State} {w : CmdWord}

/-- The state after the RDONE of a ramp and an accepted RESUME (R104). -/
def rampEndedAndResumed (s : State) : State := setRunning { rampEnded s with cmdPort := none } true

/-- The port is ready as soon as the ramp has ended, so the RESUME is accepted. -/
theorem runEventsWith_rdone_resume (es : List Event) (hs : s.ramping = true) (hcentre : s.bias = 127)
    (hbegun : s.begun = true) (hempty : pendEmpty s = true) (hop : (opField w).toNat = 6) :
    runEventsWith rom ([.rdone] ++ offerEvents w ++ es) s = runEventsWith rom es (rampEndedAndResumed s) := by
  have hready : cmdReady (rampEnded s) = true := cmdReady_iff.mpr ⟨rfl, hempty⟩
  have hresume : effect .resume { rampEnded s with cmdPort := none } = rampEndedAndResumed s :=
    effect_resume_of_begun hbegun
  calc
    _ = runEventsWith rom (offerEvents w ++ es) (rampEnded s) := runEventsWith_cons (runEventWith_rdone rom hs hcentre)
    _ = _ := by rw [runEventsWith_offerEvents _ w es hready, decode_resume (BitVec.eq_of_toNat_eq hop), hresume]

/-- Every phase is 0 there, so a TICK advances it to its tuning word. -/
theorem advancedPhases_rampEndedAndResumed (s : State) : advancedPhases (rampEndedAndResumed s) = s.tw :=
  Quad.ext_get fun i =>
    calc
      _ = (Quad.fill 0).get i + s.tw.get i := advancedPhases_get _ i
      _ = s.tw.get i := by rw [Quad.get_fill, zero_add]

theorem phaseIndex_eq_zero_iff (ph : Word) : phaseIndex ph = 0 ↔ ph.toNat < 2 ^ 24 := by
  have hlt := ph.isLt
  rw [phaseIndex_eq_ofNat, BitVec.toNat_eq, BitVec.toNat_ofNat, show (0 : Byte).toNat = 0 from rfl]
  omega

end Resume

/-- Settles O49: the TICK of the resumed block looks up the tuning words. -/
theorem firstSampleAfterResume : Obligations.FirstSampleAfterResume := by
  intro rom s w hs hcentre hbegun hempty hop
  have htick : runEventsWith rom [.tick] (rampEndedAndResumed s) = .next (produceSample rom (rampEndedAndResumed s)) :=
    runEventsWith_cons (runEventWith_tick_running rom rfl)
  have hph := advancedPhases_rampEndedAndResumed s
  have hbias : ((rampEndedAndResumed s).bias.toNat : Int) = 127 := congrArg (fun b : Byte => (b.toNat : Int)) hcentre
  refine ⟨_, (runEventsWith_rdone_resume [.tick] hs hcentre hbegun hempty hop).trans htick, hph, ?_, fun i => ?_⟩
  · rw [produceSample_level, outputLevel_toNat, mixSum_eq_sum_contribution, hph, hbias]
    rfl
  · rw [produceSample_ph, hph, phaseIndex_eq_zero_iff]

end Sys2Proof.Machine
end

section
/-!
PROOFS. NOP and the reserved opcodes of 44_nop_and_reserved.md: what a word with opcode 0 (O9) and a word with one of the
opcodes 7 to 15 (O10) does.
-/

namespace Sys2Proof.Machine

/-! ### NOP -/

section Nop

variable {s : State}

/-- A command without an effect changes nothing, whether it is accepted or waits (R52). -/
theorem exec_of_effect_eq_self {i : Instr} (h : effect i s = s) : exec i s = .next s := by
  cases hready : cmdReady s with
  | true => rw [exec_ready i hready, h]
  | false => exact exec_waits i hready

theorem exec_nop (s : State) : exec .nop s = .next s := exec_of_effect_eq_self rfl

/-- An accepted NOP only leaves the port. -/
theorem acceptEvent_of_decode_nop {w : CmdWord} (hdecode : decode w = .nop) (hw : s.cmdPort = some w)
    (hready : cmdReady s = true) : acceptEvent s = .next { s with cmdPort := none } := by
  rw [acceptEvent_ready hw hready, hdecode, exec_nop]

end Nop

/-- Settles O9: NOP has no effect, and a busy port makes the presented word wait, whichever word it is. -/
theorem nopChangesNothing : Obligations.NopChangesNothing := by
  refine ⟨exec_nop, fun w hop => decode_nop (BitVec.eq_of_toNat_eq hop), by decide, fun s hbusy w hw => ?_⟩
  calc
    runEvent .accept s = exec (decode w) s := acceptEvent_busy hw hbusy
    _ = .next s := exec_waits _ hbusy

/-- Settles O10: a reserved opcode decodes to NOP (R59), and no command's own opcode is a reserved one (R58). -/
theorem reservedOpcodesChangeNothing : Obligations.ReservedOpcodesChangeNothing := by
  refine ⟨fun w s hop => ?_, fun w s hop hw hready => ?_, fun i => ?_⟩
  · rw [decode_reserved hop, exec_nop]
  · exact acceptEvent_of_decode_nop (decode_reserved hop) hw hready
  · rw [opField_encode]
    exact opcode_le_six i

end Sys2Proof.Machine
end

section
/-!
PROOFS. The rules of 60_exceptions.md: no step of R8 can fail (O7), and the clock cycle of R124, its order and what is
enabled in it (O43), with the TICK that comes before the command it coincides with (O42).
-/

namespace Sys2Proof.Machine

/-! ### Totality -/

theorem exists_next_runEventWith (rom : RomTable) (e : Event) (s : State) : ∃ t, runEventWith rom e s = .next t :=
  (runEventWith_agendaFree rom e s).imp fun _ h => h.1

theorem exists_next_exec (i : Instr) (s : State) : ∃ t, exec i s = .next t :=
  (exec_agendaFree i s).imp fun _ h => h.1

/-- Settles O7: a step is one event on the state with the choice used up, and every event and every command answers a
next state. -/
theorem nothingEverFaults : Obligations.NothingEverFaults :=
  ⟨fun s => exists_next_runEventWith Config.rom (nextEvent s) (advanceAgenda s),
    exists_next_runEventWith Config.rom, exists_next_exec⟩

/-! ### The order of a clock cycle

The events of a cycle, item by item of R124: those of one item have its rank, so the order and the counts are read off
one item at a time. -/

section CycleOrder

variable {c : Strobes} {s : State} {e : Event} {k : Nat}

/-- The COMMIT steps of a cycle, item 4 of R124. -/
abbrev commitEvents (cs : List (PendField × Voice)) : List Event := cs.map fun fi => .commit fi.1 fi.2

/-- The events of the clock cycle that have the rank `k`. -/
def eventsOfRank (c : Strobes) (s : State) : Nat → List Event
  | 0 => pinEvents c
  | 1 => if c.rst then [.reset] else []
  | 2 => if !c.rst && (c.sampleTick && s.running) then [.tick] else []
  | 3 => if c.rst then [] else rampEvents c s
  | 4 => if c.rst then [] else commitEvents c.commits
  | 5 => if !c.rst && (c.command.isSome && cmdReady s) then [.accept] else []
  | _ => []

/-- The ranks of the events that follow the pins in a cycle without `rst`. -/
def workRanks : List Nat := [2, 3, 4, 5]

theorem cycleEvents_eq_flatMap (c : Strobes) (s : State) :
    cycleEvents c s = (List.range 6).flatMap (eventsOfRank c s) := by
  have hrange : List.range 6 = [0, 1, 2, 3, 4, 5] := rfl
  cases h : c.rst <;> simp [hrange, cycleEvents, eventsOfRank, h]

theorem cycleEvents_of_rst (h : c.rst = true) : cycleEvents c s = pinEvents c ++ [.reset] := by
  simp [cycleEvents, h]

theorem cycleEvents_of_not_rst (h : c.rst = false) :
    cycleEvents c s = pinEvents c ++ workRanks.flatMap (eventsOfRank c s) := by
  simp [cycleEvents, workRanks, eventsOfRank, h]

/-- Item 3 of R124: when the ramp timer fires, that step of the ramp which is enabled. -/
theorem rampEvents_eq_append (c : Strobes) (s : State) :
    rampEvents c s = (if c.rampTimer = true ∧ enabled .rstep s = true then [.rstep] else []) ++
      (if c.rampTimer = true ∧ enabled .rdone s = true then [.rdone] else []) := by
  by_cases hb : s.bias = Config.biasCenter <;> simp [rampEvents, enabled, hb]

theorem mem_pinEvents (he : e ∈ pinEvents c) :
    (e = .withdraw ∧ c.command = none) ∨ ∃ w, e = .present w ∧ c.command = some w := by
  cases hw : c.command with
  | none => exact .inl ⟨by simpa [pinEvents, hw] using he, rfl⟩
  | some w => exact .inr ⟨w, by simpa [pinEvents, hw] using he, rfl⟩

theorem mem_eventsOfRank_one (he : e ∈ eventsOfRank c s 1) : e = .reset ∧ c.rst = true := by
  simpa [eventsOfRank, and_comm] using he

theorem mem_eventsOfRank_two (he : e ∈ eventsOfRank c s 2) : e = .tick ∧ s.running = true := by
  obtain ⟨⟨-, -, hrun⟩, rfl⟩ : (c.rst = false ∧ c.sampleTick = true ∧ s.running = true) ∧ e = .tick := by
    simpa [eventsOfRank] using he
  exact ⟨rfl, hrun⟩

theorem mem_eventsOfRank_three (he : e ∈ eventsOfRank c s 3) : (e = .rstep ∨ e = .rdone) ∧ enabled e s = true := by
  have hmem : e ∈ rampEvents c s := by
    cases hrst : c.rst <;> simp_all [eventsOfRank]
  rw [rampEvents_eq_append, List.mem_append] at hmem
  obtain hstep | hdone := hmem
  · obtain ⟨⟨-, hen⟩, rfl⟩ : (c.rampTimer = true ∧ enabled .rstep s = true) ∧ e = .rstep := by simpa using hstep
    exact ⟨.inl rfl, hen⟩
  · obtain ⟨⟨-, hen⟩, rfl⟩ : (c.rampTimer = true ∧ enabled .rdone s = true) ∧ e = .rdone := by simpa using hdone
    exact ⟨.inr rfl, hen⟩

theorem mem_eventsOfRank_four (he : e ∈ eventsOfRank c s 4) : ∃ fi ∈ c.commits, e = .commit fi.1 fi.2 := by
  obtain ⟨-, f, i, hmem, rfl⟩ : c.rst = false ∧ ∃ f i, (f, i) ∈ c.commits ∧ .commit f i = e := by
    simpa [eventsOfRank] using he
  exact ⟨(f, i), hmem, rfl⟩

theorem mem_eventsOfRank_five (he : e ∈ eventsOfRank c s 5) :
    e = .accept ∧ c.command.isSome = true ∧ cmdReady s = true := by
  obtain ⟨⟨-, hword, hready⟩, rfl⟩ : (c.rst = false ∧ c.command.isSome = true ∧ cmdReady s = true) ∧ e = .accept := by
    simpa [eventsOfRank] using he
  exact ⟨rfl, hword, hready⟩

theorem cycleRank_of_mem (he : e ∈ eventsOfRank c s k) : cycleRank e = k := by
  match k with
  | 0 => obtain ⟨rfl, -⟩ | ⟨w, rfl, -⟩ := mem_pinEvents he <;> rfl
  | 1 => obtain ⟨rfl, -⟩ := mem_eventsOfRank_one he; rfl
  | 2 => obtain ⟨rfl, -⟩ := mem_eventsOfRank_two he; rfl
  | 3 => obtain ⟨rfl | rfl, -⟩ := mem_eventsOfRank_three he <;> rfl
  | 4 => obtain ⟨fi, -, rfl⟩ := mem_eventsOfRank_four he; rfl
  | 5 => obtain ⟨rfl, -⟩ := mem_eventsOfRank_five he; rfl
  | k + 6 => cases he

theorem cycleRank_lt_six (e : Event) : cycleRank e < 6 := by
  cases e <;> simp [cycleRank]

/-- A relation that holds between an event and each event of a later item, and within each item, holds all along. -/
theorem pairwise_flatMap_eventsOfRank {R : Event → Event → Prop} {ks : List Nat} (hks : ks.Pairwise (· < ·))
    (hwithin : ∀ k ∈ ks, (eventsOfRank c s k).Pairwise R)
    (hlater : ∀ a b, cycleRank a ∈ ks → cycleRank a < cycleRank b → R a b) :
    (ks.flatMap (eventsOfRank c s)).Pairwise R := by
  refine List.pairwise_flatMap.mpr ⟨hwithin, hks.imp_of_mem fun {j k} hj _ hlt a ha b hb => ?_⟩
  have hja := cycleRank_of_mem ha
  have hkb := cycleRank_of_mem hb
  exact hlater a b (hja.symm ▸ hj) (by omega)

theorem cycleEvents_sorted (c : Strobes) (s : State) :
    (cycleEvents c s).Pairwise fun a b => cycleRank a ≤ cycleRank b := by
  rw [cycleEvents_eq_flatMap]
  refine pairwise_flatMap_eventsOfRank List.pairwise_lt_range (fun k _ => ?_) fun _ _ _ hlt => hlt.le
  exact List.pairwise_of_forall_mem_list fun a ha b hb => by rw [cycleRank_of_mem ha, cycleRank_of_mem hb]

/-- An event occurs in a cycle as often as in the item of its rank. -/
theorem count_cycleEvents (c : Strobes) (s : State) (e : Event) :
    (cycleEvents c s).count e = (eventsOfRank c s (cycleRank e)).count e := by
  have hother : ∀ k, k ≠ cycleRank e → (eventsOfRank c s k).count e = 0 := fun k hk =>
    List.count_eq_zero.mpr fun he => hk (cycleRank_of_mem he).symm
  have honce : (List.range 6).count (cycleRank e) = 1 :=
    List.count_eq_one_of_mem List.nodup_range (List.mem_range.mpr (cycleRank_lt_six e))
  rw [cycleEvents_eq_flatMap, List.count_flatMap,
    List.sum_map_eq_nsmul_single (cycleRank e) (List.count e ∘ eventsOfRank c s) fun k hk _ => hother k hk, honce,
    one_smul, Function.comp]

theorem commit_injective : Function.Injective fun fi : PendField × Voice => Event.commit fi.1 fi.2 :=
  fun _ _ h => Prod.ext (Event.commit.inj h).1 (Event.commit.inj h).2

theorem count_commitEvents (cs : List (PendField × Voice)) (f : PendField) (i : Voice) :
    (commitEvents cs).count (.commit f i) = cs.count (f, i) :=
  List.count_map_of_injective cs _ commit_injective (f, i)

theorem count_commit_cycleEvents (c : Strobes) (s : State) (f : PendField) (i : Voice) :
    (cycleEvents c s).count (.commit f i) = if c.rst = false then c.commits.count (f, i) else 0 := by
  rw [count_cycleEvents]
  cases hrst : c.rst <;> simp [eventsOfRank, cycleRank, hrst, count_commitEvents]

theorem count_present_cycleEvents (c : Strobes) (s : State) (w : CmdWord) :
    (cycleEvents c s).count (.present w) = if c.command = some w then 1 else 0 := by
  rw [count_cycleEvents]
  cases hw : c.command <;> simp [eventsOfRank, cycleRank, pinEvents, hw, List.count_singleton]

theorem count_withdraw_cycleEvents (c : Strobes) (s : State) :
    (cycleEvents c s).count .withdraw = if c.command = none then 1 else 0 := by
  rw [count_cycleEvents]
  cases hw : c.command <;> simp [eventsOfRank, cycleRank, pinEvents, hw]

theorem count_reset_cycleEvents (c : Strobes) (s : State) :
    (cycleEvents c s).count .reset = if c.rst = true then 1 else 0 := by
  rw [count_cycleEvents]
  cases hrst : c.rst <;> simp [eventsOfRank, cycleRank, hrst]

theorem count_tick_cycleEvents (c : Strobes) (s : State) : (cycleEvents c s).count .tick =
    if c.rst = false ∧ c.sampleTick = true ∧ s.running = true then 1 else 0 := by
  rw [count_cycleEvents]
  simp [eventsOfRank, cycleRank, apply_ite (List.count Event.tick)]

theorem count_rstep_cycleEvents (c : Strobes) (s : State) : (cycleEvents c s).count .rstep =
    if c.rst = false ∧ c.rampTimer = true ∧ s.ramping = true ∧ s.bias ≠ 127 then 1 else 0 := by
  rw [count_cycleEvents]
  cases hrst : c.rst <;>
    simp [eventsOfRank, cycleRank, hrst, rampEvents_eq_append, apply_ite (List.count Event.rstep), enabled_rstep_iff]

theorem count_rdone_cycleEvents (c : Strobes) (s : State) : (cycleEvents c s).count .rdone =
    if c.rst = false ∧ c.rampTimer = true ∧ s.ramping = true ∧ s.bias = 127 then 1 else 0 := by
  rw [count_cycleEvents]
  cases hrst : c.rst <;>
    simp [eventsOfRank, cycleRank, hrst, rampEvents_eq_append, apply_ite (List.count Event.rdone), enabled_rdone_iff]

theorem count_accept_cycleEvents (c : Strobes) (s : State) : (cycleEvents c s).count .accept =
    if c.rst = false ∧ c.command ≠ none ∧ cmdReady s = true then 1 else 0 := by
  rw [count_cycleEvents]
  simp [eventsOfRank, cycleRank, apply_ite (List.count Event.accept), Option.isSome_iff_ne_none]

end CycleOrder

/-! ### What is enabled in a clock cycle

The events of a cycle that follow the pins are all enabled as soon as the pins are set, and none of them disables a
later one; a list of events with these two properties is enabled all along. -/

section CycleEnabled

variable {rom : RomTable} {c : Strobes} {s t : State} {a b e : Event} {es : List Event} {f : PendField} {i : Voice}

/-- The event `a`, where it happens enabled, leaves the event `b` enabled. -/
def Spares (rom : RomTable) (a b : Event) : Prop :=
  ∀ s t, enabled a s = true → enabled b s = true → runEventWith rom a s = .next t → enabled b t = true

theorem alongRun_enabled_of_spares (hen : ∀ e ∈ es, enabled e s = true) (hes : es.Pairwise (Spares rom)) :
    alongRun enabled rom es s = true := by
  induction es generalizing s with
  | nil => rfl
  | cons e es ih =>
    obtain ⟨hhead, htail⟩ := List.pairwise_cons.mp hes
    obtain ⟨hene, henes⟩ := List.forall_mem_cons.mp hen
    obtain ⟨t, ht⟩ := exists_next_runEventWith rom e s
    simp only [alongRun, ht, hene, Bool.true_and]
    exact ih (fun b hb => hhead b hb s t hene (henes b hb) ht) htail

theorem enabled_produceSample (rom : RomTable) (e : Event) (s : State) :
    enabled e (produceSample rom s) = enabled e s := by
  cases e with
  | commit f i => cases f <;> rfl
  | present w => rfl
  | withdraw => rfl
  | accept => rfl
  | tick => rfl
  | rstep => rfl
  | rdone => rfl
  | reset => rfl

theorem spares_of_tick (b : Event) : Spares rom .tick b := fun s t hen hb ht => by
  obtain rfl : produceSample rom s = t := Host.Outcome.next.inj ((runEventWith_tick_running rom hen).symm.trans ht)
  rw [enabled_produceSample, hb]

theorem AgentStep.isQuiet (he : AgentStep e) : IsQuiet e := by
  cases he <;> exact ⟨nofun, nofun⟩

/-- While an internal agent has a step to take, the port is not ready (R25). -/
theorem AgentStep.not_cmdReady (he : AgentStep e) (hen : enabled e s = true) : cmdReady s = false := by
  refine Bool.eq_false_iff.mpr fun hready => ?_
  obtain ⟨hramp, hempty⟩ := cmdReady_iff.mp hready
  obtain ⟨hkind, hamp⟩ := pendEmpty_iff.mp hempty
  cases he with
  | commit f i => cases f <;> simp [enabled, hkind, hamp] at hen
  | rstep => simp [enabled_rstep_of_not_ramping hramp] at hen
  | rdone => simp [enabled_rdone_of_not_ramping hramp] at hen

theorem AgentStep.spares_accept (ha : AgentStep a) : Spares rom a .accept := fun s _ hen hb _ => by
  have hbusy : cmdReady s = false := ha.not_cmdReady hen
  rw [cmdReady_of_enabled_accept hb] at hbusy
  cases hbusy

/-- A quiet event removes no pending write but the one it commits. -/
theorem IsQuiet.spares_commit (ha : IsQuiet a) (hne : a ≠ .commit f i) : Spares rom a (.commit f i) :=
  fun s t _ hb ht => by
    obtain ⟨g, j, rfl, rfl⟩ | ⟨-, hkind, hamp, -⟩ := ha.pending_cases ht
    · exact (enabled_commit_commitEvent f g i j s).mpr ⟨hb, fun ⟨hf, hi⟩ => hne (by rw [hf, hi])⟩
    · cases f with
      | kind => simpa [enabled, hkind] using hb
      | amp => simpa [enabled, hamp] using hb

theorem commit_or_accept_of_rank (h : 3 < cycleRank e) : (∃ f i, e = .commit f i) ∨ e = .accept := by
  cases e <;> simp_all [cycleRank]

/-- A step of an internal agent disables no event of a later item. -/
theorem AgentStep.spares_of_rank_lt (ha : AgentStep a) (hlt : cycleRank a < cycleRank b) : Spares rom a b := by
  have hrank : 3 ≤ cycleRank a := by cases ha <;> simp [cycleRank]
  obtain ⟨f, i, rfl⟩ | rfl := commit_or_accept_of_rank (hrank.trans_lt hlt)
  · exact ha.isQuiet.spares_commit fun heq => absurd hlt (heq ▸ lt_irrefl _)
  · exact ha.spares_accept

theorem spares_of_rank_lt (ha : cycleRank a ∈ workRanks) (hlt : cycleRank a < cycleRank b) : Spares rom a b := by
  cases a with
  | tick => exact spares_of_tick b
  | rstep => exact AgentStep.rstep.spares_of_rank_lt hlt
  | rdone => exact AgentStep.rdone.spares_of_rank_lt hlt
  | commit f i => exact (AgentStep.commit f i).spares_of_rank_lt hlt
  | accept => cases b <;> simp [cycleRank] at hlt
  | present w => simp [cycleRank, workRanks] at ha
  | withdraw => simp [cycleRank, workRanks] at ha
  | reset => simp [cycleRank, workRanks] at ha

theorem commits_spare_each_other {cs : List (PendField × Voice)} (h : cs.Nodup) :
    (commitEvents cs).Pairwise (Spares rom) :=
  List.pairwise_map.mpr <| h.imp fun {x _} hne =>
    (AgentStep.commit x.1 x.2).isQuiet.spares_commit fun heq => hne (commit_injective heq)

/-- The state once the pins have the levels of the cycle. -/
def drivePins (c : Strobes) (s : State) : State := { s with cmdPort := c.command }

theorem alongRun_enabled_pinEvents (rom : RomTable) (c : Strobes) (s : State) (es : List Event) :
    alongRun enabled rom (pinEvents c ++ es) s = alongRun enabled rom es (drivePins c s) := by
  cases hw : c.command <;> simp [pinEvents, drivePins, hw, alongRun, enabled, runEventWith]

theorem runEventsWith_pinEvents (rom : RomTable) (c : Strobes) (s : State) (es : List Event) :
    runEventsWith rom (pinEvents c ++ es) s = runEventsWith rom es (drivePins c s) := by
  cases hw : c.command <;> simp [pinEvents, drivePins, hw, runEventsWith, runEventWith]

/-- Only ACCEPT waits for HOST. -/
theorem enabled_drivePins (c : Strobes) (hne : e ≠ .accept) : enabled e (drivePins c s) = enabled e s := by
  cases e with
  | accept => exact absurd rfl hne
  | commit f i => cases f <;> rfl
  | present w => rfl
  | withdraw => rfl
  | tick => rfl
  | rstep => rfl
  | rdone => rfl
  | reset => rfl

theorem enabled_of_mem_cycle {k : Nat} (hcommits : ∀ fi ∈ c.commits, enabled (.commit fi.1 fi.2) s = true)
    (hk : k ∈ workRanks) (he : e ∈ eventsOfRank c s k) : enabled e (drivePins c s) = true := by
  obtain rfl | rfl | rfl | rfl : k = 2 ∨ k = 3 ∨ k = 4 ∨ k = 5 := by simpa [workRanks] using hk
  · obtain ⟨rfl, hrun⟩ := mem_eventsOfRank_two he
    exact hrun
  · obtain ⟨hramp, hen⟩ := mem_eventsOfRank_three he
    exact (enabled_drivePins c (by rintro rfl; simp at hramp)).trans hen
  · obtain ⟨fi, hmem, rfl⟩ := mem_eventsOfRank_four he
    exact (enabled_drivePins c Event.noConfusion).trans (hcommits fi hmem)
  · obtain ⟨rfl, hword, hready⟩ := mem_eventsOfRank_five he
    exact Bool.and_eq_true_iff.mpr ⟨hword, hready⟩

theorem eventsOfRank_spare_each_other (hnodup : c.commits.Nodup) {k : Nat} (hk : k ∈ workRanks) :
    (eventsOfRank c s k).Pairwise (Spares rom) := by
  obtain rfl | rfl | rfl | rfl : k = 2 ∨ k = 3 ∨ k = 4 ∨ k = 5 := by simpa [workRanks] using hk
  · simp only [eventsOfRank]; split <;> simp
  · simp only [eventsOfRank, rampEvents]; split_ifs <;> simp
  · simp only [eventsOfRank]
    split
    · exact .nil
    · exact commits_spare_each_other hnodup
  · simp only [eventsOfRank]; split <;> simp

theorem cycleEvents_enabled (rom : RomTable) (hnodup : c.commits.Nodup)
    (hcommits : ∀ fi ∈ c.commits, enabled (.commit fi.1 fi.2) s = true) :
    alongRun enabled rom (cycleEvents c s) s = true := by
  cases hrst : c.rst with
  | true => rw [cycleEvents_of_rst hrst, alongRun_enabled_pinEvents]; rfl
  | false =>
    rw [cycleEvents_of_not_rst hrst, alongRun_enabled_pinEvents]
    refine alongRun_enabled_of_spares (fun e he => ?_) ?_
    · obtain ⟨k, hk, hek⟩ := List.mem_flatMap.mp he
      exact enabled_of_mem_cycle hcommits hk hek
    · exact pairwise_flatMap_eventsOfRank (by decide) (fun k hk => eventsOfRank_spare_each_other hnodup hk)
        fun a b ha hlt => spares_of_rank_lt ha hlt

/-- The agenda of a cycle, performed step by step, is the cycle. -/
theorem core_run_scheduleCycle (c : Strobes) (s : State) :
    core.run (cycleEvents c s).length (scheduleCycle c s) = clockCycle Config.rom c s :=
  core_run_agenda (cycleEvents c s) s.agenda (scheduleCycle c s) rfl

end CycleEnabled

/-- Settles O43: the order and the counts are read off the items of R124; the machine's steps are the events of its
agenda. -/
theorem clockCycleIsAnInterleaving : Obligations.ClockCycleIsAnInterleaving := fun c s =>
  ⟨cycleEvents_sorted c s, count_reset_cycleEvents c s, count_tick_cycleEvents c s, count_rstep_cycleEvents c s,
    count_rdone_cycleEvents c s, count_commit_cycleEvents c s, count_accept_cycleEvents c s,
    count_present_cycleEvents c s, count_withdraw_cycleEvents c s,
    fun hnodup hcommits rom => cycleEvents_enabled rom hnodup hcommits, core_run_scheduleCycle c s⟩

/-! ### A TICK and a command in one cycle -/

section CoincidingTick

variable {rom : RomTable} {c : Strobes} {s : State} {w : CmdWord} {es : List Event}

theorem runEventsWith_of_disabled (fs : List Event) (h : ∀ e ∈ es, enabled e s = false) :
    runEventsWith rom (es ++ fs) s = runEventsWith rom fs s := by
  induction es with
  | nil => rfl
  | cons e es ih =>
    obtain ⟨hhead, htail⟩ := List.forall_mem_cons.mp h
    exact (runEventsWith_cons (runEventWith_disabled rom hhead)).trans (ih htail)

/-- At a ready port no internal agent has a step to take (R25). -/
theorem AgentStep.disabled_of_cmdReady {e : Event} (he : AgentStep e) (hready : cmdReady s = true) :
    enabled e s = false :=
  Bool.eq_false_iff.mpr fun hen => by simp [he.not_cmdReady hen] at hready

/-- With a tick of a running block and a word at a ready port, the cycle is the pins, TICK, COMMITs and ACCEPT. -/
theorem cycleEvents_tick_accept (hrst : c.rst = false) (htick : c.sampleTick = true) (hw : c.command = some w)
    (hrun : s.running = true) (hready : cmdReady s = true) :
    cycleEvents c s = pinEvents c ++ .tick :: (commitEvents c.commits ++ [.accept]) := by
  have hramp : rampEvents c s = [] := by simp [rampEvents, ramping_of_cmdReady hready]
  simp [cycleEvents, hrst, htick, hw, hrun, hready, hramp]

end CoincidingTick

/-- Settles O42: at a ready port the COMMITs of the cycle find no entry, so the ACCEPT runs on the state after the TICK,
which does not read the pins. -/
theorem coincidingTickUsesTheOldValues : Obligations.CoincidingTickUsesTheOldValues := by
  intro rom c s w hrst htick hw hrun hready
  have hreadyTick : cmdReady (produceSample rom (drivePins c s)) = true := hready
  have hcommits : ∀ e ∈ commitEvents c.commits, enabled e (produceSample rom (drivePins c s)) = false := by
    intro e he
    obtain ⟨fi, -, rfl⟩ := List.mem_map.mp he
    exact (AgentStep.commit fi.1 fi.2).disabled_of_cmdReady hreadyTick
  have haccept : runEventWith rom .accept (produceSample rom (drivePins c s)) =
      exec (decode w) { produceSample rom s with cmdPort := none } :=
    acceptEvent_ready hw hreadyTick
  obtain ⟨t, ht⟩ := exists_next_exec (decode w) { produceSample rom s with cmdPort := none }
  calc
    clockCycle rom c s =
        runEventsWith rom (.tick :: (commitEvents c.commits ++ [.accept])) (drivePins c s) := by
      rw [clockCycle, cycleEvents_tick_accept hrst htick hw hrun hready, runEventsWith_pinEvents]
    _ = runEventsWith rom (commitEvents c.commits ++ [.accept]) (produceSample rom (drivePins c s)) :=
      runEventsWith_cons (runEventWith_tick_running rom (s := drivePins c s) hrun)
    _ = runEventsWith rom [.accept] (produceSample rom (drivePins c s)) := runEventsWith_of_disabled _ hcommits
    _ = .next t := runEventsWith_cons (haccept.trans ht)
    _ = exec (decode w) { produceSample rom s with cmdPort := none } := ht.symm

end Sys2Proof.Machine
end

section
/-!
PROOFS. The rules of 70_reset_and_hazards.md: the amplitudes that keep every mix in the headroom (O31), and the duration
of a ramp (O60).
-/

namespace Sys2Proof.Machine

/-! ### The headroom -/

/-- R146's bound on one voice, for any table entry: a product of at least `-128 · amp` and at most `127 · amp`, divided by
256. -/
theorem abs_scaleSample_le (raw amp : Byte) : |scaleSample raw amp| ≤ (((amp.toNat + 1) / 2 : Nat) : Int) := by
  obtain ⟨hrlo, hrhi⟩ := byte_toInt_mem raw
  obtain ⟨hamp, -⟩ := byte_toNat_mem amp
  have hlo := mul_le_mul_of_nonneg_right hrlo hamp
  have hhi := mul_le_mul_of_nonneg_right hrhi hamp
  rw [scaleSample_eq_ediv, abs_le]
  omega

/-- The contributions' bounds add up in the mix. -/
theorem abs_mixSum_le (rom : RomTable) (s : State) :
    |mixSum rom s| ≤ ((∑ i : Voice, ((s.amp.get i).toNat + 1) / 2 : Nat) : Int) := by
  rw [mixSum_eq_sum_voiceScaled, Nat.cast_sum]
  exact (Finset.abs_sum_le_sum_abs _ _).trans (Finset.sum_le_sum fun i _ => abs_scaleSample_le _ _)

/-- Settles O31: the mix is at most the halves' sum away from 0, so the level does not wrap. -/
theorem smallAmplitudesNeverWrap : Obligations.SmallAmplitudesNeverWrap := by
  intro rom s hbias hamps
  have hmix : |mixSum rom s| ≤ 127 := (abs_mixSum_le rom s).trans (by exact_mod_cast hamps)
  obtain ⟨hlo, hhi⟩ := abs_le.mp hmix
  have hroom : inHeadroom (mixSum rom s) := ⟨hlo, hhi.trans (by norm_num)⟩
  refine ⟨hroom, ?_⟩
  rw [hbias]
  exact (outputLevel_center_iff _).mpr hroom

/-! ### The duration of a ramp -/

/-- The bias is at most 128 units away from 127 (R102). -/
theorem biasDistance_le (b : Byte) : biasDistance b ≤ 128 := by
  have := b.isLt
  unfold biasDistance
  omega

theorem rampDuration_le {stepTime : ℚ} (h : 0 ≤ stepTime) (b : Byte) : rampDuration stepTime b ≤ 128 * stepTime :=
  mul_le_mul_of_nonneg_right (by exact_mod_cast biasDistance_le b) h

theorem rampDuration_eq_zero_iff {stepTime : ℚ} (h : stepTime ≠ 0) {b : Byte} :
    rampDuration stepTime b = 0 ↔ b = 127 := by
  rw [rampDuration, mul_eq_zero_iff_right h, Nat.cast_eq_zero, biasDistance_eq_zero_iff]

/-- One unit toward the centre takes one step time off the duration (R102, R154). -/
theorem rampDuration_biasTowardCenter (stepTime : ℚ) {b : Byte} (h : b ≠ 127) :
    rampDuration stepTime (biasTowardCenter b) + stepTime = rampDuration stepTime b := by
  rw [rampDuration, rampDuration, ← biasDistance_biasTowardCenter h, Nat.cast_succ, add_one_mul]

/-- Settles O60: an enabled RSTEP finds the bias off the centre and moves it by one unit. -/
theorem rampDurationIsBounded : Obligations.RampDurationIsBounded := by
  intro stepTime s hpos
  refine ⟨mul_nonneg (Nat.cast_nonneg _) hpos.le, rampDuration_le hpos.le s.bias, rampDuration_eq_zero_iff hpos.ne', ?_⟩
  intro t hen ht
  obtain ⟨-, hoff⟩ := enabled_rstep_iff.mp hen
  obtain rfl : rstepEvent s = t := Host.Outcome.next.inj ht
  rw [rstepEvent_enabled hen]
  exact rampDuration_biasTowardCenter stepTime hoff

end Sys2Proof.Machine
end
